-- ==== Sys2Proof/Word.lean ====
section
/-!
DEFINITION. The words of the hardware: a 32-bit register, address or instruction word, a register index, and the text
ENC reads and EXE prints.
-/

namespace Sys2Proof

/-- XLEN and ILEN, 32 bits (00_scope.md R7): a register, the pc, a data address, a data word, an instruction word. -/
abbrev Word := BitVec 32

/-- A byte of the little-endian byte view of a word (20_memory.md R53). -/
abbrev Byte := BitVec 8

/-- A register index 0 to 31 (10_state.md R21; 30_encoding.md R71). -/
abbrev RegIdx := Fin 32

/-- A line, a token or a name, as its characters (40_encoder.md R110). -/
abbrev Text := List Char

end Sys2Proof
end

