-- ==== Sys2Proof/Config.lean ====
section
/-!
DEFINITION. The parameters of 00_scope.md R7. Those the spec decides have the spec's value; those it calls OPEN are
opaque, so that no proof can learn a value of them.
-/

namespace Sys2Proof

/-- How EXE widens the 12-bit field of `sltiu` (00_scope.md R7, `SLTIU_IMM_EXT`). -/
inductive ImmExt where
  | sext
  | zext
deriving DecidableEq, Repr

/-- `HALT_WORD` (00_scope.md R7; decision D1 of 92_eei_decisions.md; log entry 3). -/
def Config.haltWord : Word := 0xFFFFFFFF#32

/-- `RST_WORD` (00_scope.md R7; stated by the source). -/
def Config.rstWord : Word := 0x00000000#32

/-- `ENTRY_PC` (10_state.md R41; decision D10). -/
def Config.entryPc : Word := 0x00000000#32

/-- `SLTIU_IMM_EXT` (43_i_type.md R203; decision D7; log entry 3). -/
def Config.sltiuImmExt : ImmExt := .sext

/-- `HALT_SNAPSHOT` (41_executor_loop.md R164; decision D19; log entry 3). -/
def Config.haltSnapshot : Bool := false

/-- DESIGN CHOICE (log entry 1): `SP_SEED`, the reset value of `x[2]`, OPEN in the spec (10_state.md R40; decision D11). -/
opaque Config.spSeed : Word

/-- DESIGN CHOICE (log entry 2): `DUMP_BASE`, OPEN in the spec (41_executor_loop.md R171; decision D12). -/
opaque Config.dumpBase : Word

/-- DESIGN CHOICE (log entry 2): `DUMP_WORDS`, OPEN in the spec (41_executor_loop.md R171; decision D12). -/
opaque Config.dumpWords : Nat

end Sys2Proof
end

