-- ==== Sys2Proof/Syntax.lean ====
section
/-!
DEFINITION. The instruction set: the 21 mnemonics of 00_scope.md R2, one constructor per row of opcode_table.json.
Operands are the values `unpack_F` gives (30_encoding.md R72 to R77): register indices, and immediates as the bit
vectors of the width the format states.
-/

namespace Sys2Proof

/-- The 21 mnemonics (00_scope.md R2). -/
inductive Mnem where
  | add | sub | slt | xor | srl | or | and
  | addi | slli | sltiu | srli | lw | jalr
  | sw
  | beq | bne
  | lui | auipc
  | jal
  | rst | halt
deriving DecidableEq, Repr

/-- An instruction. Operand order is that of the assembly line (40_encoder.md R118). -/
inductive Instr where
  /-- 42_r_type.md R191. -/
  | add (rd rs1 rs2 : RegIdx)
  /-- 42_r_type.md R192. -/
  | sub (rd rs1 rs2 : RegIdx)
  /-- 42_r_type.md R196. -/
  | slt (rd rs1 rs2 : RegIdx)
  /-- 42_r_type.md R195. -/
  | xor (rd rs1 rs2 : RegIdx)
  /-- 42_r_type.md R197. -/
  | srl (rd rs1 rs2 : RegIdx)
  /-- 42_r_type.md R194. -/
  | or (rd rs1 rs2 : RegIdx)
  /-- 42_r_type.md R193. -/
  | and (rd rs1 rs2 : RegIdx)
  /-- 43_i_type.md R200; `imm` is `imm[11:0]`. -/
  | addi (rd rs1 : RegIdx) (imm : BitVec 12)
  /-- 43_i_type.md R201; `shamt` is `w[24:20]` (30_encoding.md R84). -/
  | slli (rd rs1 : RegIdx) (shamt : BitVec 5)
  /-- 43_i_type.md R203; `imm` is the 12-bit field (30_encoding.md R85). -/
  | sltiu (rd rs1 : RegIdx) (imm : BitVec 12)
  /-- 43_i_type.md R202. -/
  | srli (rd rs1 : RegIdx) (shamt : BitVec 5)
  /-- 43_i_type.md R205: `lw rd, imm(rs1)`. -/
  | lw (rd rs1 : RegIdx) (imm : BitVec 12)
  /-- 43_i_type.md R204. -/
  | jalr (rd rs1 : RegIdx) (imm : BitVec 12)
  /-- 44_s_type.md R210: `sw rs2, imm(rs1)`. -/
  | sw (rs2 rs1 : RegIdx) (imm : BitVec 12)
  /-- 45_b_type.md R215; `off` is `imm13`. -/
  | beq (rs1 rs2 : RegIdx) (off : BitVec 13)
  /-- 45_b_type.md R216. -/
  | bne (rs1 rs2 : RegIdx) (off : BitVec 13)
  /-- 46_u_type.md R220; `val` is `v32`. -/
  | lui (rd : RegIdx) (val : BitVec 32)
  /-- 46_u_type.md R221. -/
  | auipc (rd : RegIdx) (val : BitVec 32)
  /-- 47_j_type.md R225; `off` is `imm21`. -/
  | jal (rd : RegIdx) (off : BitVec 21)
  /-- 48_sentinels_unknown.md R231. -/
  | rst
  /-- 48_sentinels_unknown.md R230. -/
  | halt
deriving DecidableEq, Repr

/-- The mnemonic of an instruction. -/
def Instr.mnem : Instr → Mnem
  | .add _ _ _ => .add
  | .sub _ _ _ => .sub
  | .slt _ _ _ => .slt
  | .xor _ _ _ => .xor
  | .srl _ _ _ => .srl
  | .or _ _ _ => .or
  | .and _ _ _ => .and
  | .addi _ _ _ => .addi
  | .slli _ _ _ => .slli
  | .sltiu _ _ _ => .sltiu
  | .srli _ _ _ => .srli
  | .lw _ _ _ => .lw
  | .jalr _ _ _ => .jalr
  | .sw _ _ _ => .sw
  | .beq _ _ _ => .beq
  | .bne _ _ _ => .bne
  | .lui _ _ => .lui
  | .auipc _ _ => .auipc
  | .jal _ _ => .jal
  | .rst => .rst
  | .halt => .halt

end Sys2Proof
end

