-- ==== Sys2Proof/WellFormed.lean ====
section
/-!
DEFINITION. Which instructions an instruction word can hold. Register indices, 12-bit fields and shift amounts are
whole by their types; a branch or jump offset has bit 0 forced 0 and a U-format value has its low 12 bits zero, because
the word does not store those bits (30_encoding.md R75 to R77, R81 to R83).
-/

namespace Sys2Proof

/-- The low 12 bits, which the U format does not store, are zero (30_encoding.md R82). -/
def upperOnly (v : BitVec 32) : Bool := v.extractLsb' 0 12 == 0#12

/-- An instruction the decode direction can return (30_encoding.md R92). -/
def Instr.wellFormed : Instr → Bool
  | .add _ _ _ => true
  | .sub _ _ _ => true
  | .slt _ _ _ => true
  | .xor _ _ _ => true
  | .srl _ _ _ => true
  | .or _ _ _ => true
  | .and _ _ _ => true
  | .addi _ _ _ => true
  | .slli _ _ _ => true
  | .sltiu _ _ _ => true
  | .srli _ _ _ => true
  | .lw _ _ _ => true
  | .jalr _ _ _ => true
  | .sw _ _ _ => true
  | .beq _ _ off => !off.getLsbD 0
  | .bne _ _ off => !off.getLsbD 0
  | .lui _ val => upperOnly val
  | .auipc _ val => upperOnly val
  | .jal _ off => !off.getLsbD 0
  | .rst => true
  | .halt => true

end Sys2Proof
end

