-- ==== Sys2Proof/Decode.lean ====
section
/-!
DEFINITION. The instruction-word codec shared by ENC and EXE (30_encoding.md): fields, the six formats, the decoder
(total on every word, rejecting by name), the encoder, and the opcode table as rows of a mask and a pattern.
-/

namespace Sys2Proof

/-! ### Fields (30_encoding.md R71) -/

/-- `w[6:0]`. -/
def opcodeOf (w : Word) : BitVec 7 := w.extractLsb' 0 7

/-- `w[11:7]`. -/
def rdOf (w : Word) : RegIdx := (w.extractLsb' 7 5).toFin

/-- `w[14:12]`. -/
def funct3Of (w : Word) : BitVec 3 := w.extractLsb' 12 3

/-- `w[19:15]`. -/
def rs1Of (w : Word) : RegIdx := (w.extractLsb' 15 5).toFin

/-- `w[24:20]` as a register index. -/
def rs2Of (w : Word) : RegIdx := (w.extractLsb' 20 5).toFin

/-- `w[31:25]`. -/
def funct7Of (w : Word) : BitVec 7 := w.extractLsb' 25 7

/-- `w[24:20]` as a shift amount (30_encoding.md R84). -/
def shamtOf (w : Word) : BitVec 5 := w.extractLsb' 20 5

/-- I format, `imm[11:0] = w[31:20]` (30_encoding.md R73). -/
def immIOf (w : Word) : BitVec 12 := w.extractLsb' 20 12

/-- S format (30_encoding.md R74). -/
def immSOf (w : Word) : BitVec 12 := w.extractLsb' 25 7 ++ w.extractLsb' 7 5

/-- B format, bit 0 forced 0 (30_encoding.md R75). -/
def immBOf (w : Word) : BitVec 13 :=
  w.extractLsb' 31 1 ++ w.extractLsb' 7 1 ++ w.extractLsb' 25 6 ++ w.extractLsb' 8 4 ++ 0#1

/-- U format, low 12 bits zero (30_encoding.md R76). -/
def immUOf (w : Word) : BitVec 32 := w.extractLsb' 12 20 ++ 0#12

/-- J format, bit 0 forced 0 (30_encoding.md R77). -/
def immJOf (w : Word) : BitVec 21 :=
  w.extractLsb' 31 1 ++ w.extractLsb' 12 8 ++ w.extractLsb' 20 1 ++ w.extractLsb' 21 10 ++ 0#1

/-- A register index as its 5-bit field. -/
def regBits (r : RegIdx) : BitVec 5 := BitVec.ofFin r

/-! ### The six packers (30_encoding.md R72 to R77) -/

/-- `pack_R`. -/
def packR (funct7 : BitVec 7) (rs2 rs1 : RegIdx) (funct3 : BitVec 3) (rd : RegIdx) (opcode : BitVec 7) : Word :=
  funct7 ++ regBits rs2 ++ regBits rs1 ++ funct3 ++ regBits rd ++ opcode

/-- `pack_I`. -/
def packI (imm12 : BitVec 12) (rs1 : RegIdx) (funct3 : BitVec 3) (rd : RegIdx) (opcode : BitVec 7) : Word :=
  imm12 ++ regBits rs1 ++ funct3 ++ regBits rd ++ opcode

/-- `pack_S`. -/
def packS (imm12 : BitVec 12) (rs2 rs1 : RegIdx) (funct3 : BitVec 3) (opcode : BitVec 7) : Word :=
  imm12.extractLsb' 5 7 ++ regBits rs2 ++ regBits rs1 ++ funct3 ++ imm12.extractLsb' 0 5 ++ opcode

/-- `pack_B`; it ignores `imm13[0]`. -/
def packB (imm13 : BitVec 13) (rs2 rs1 : RegIdx) (funct3 : BitVec 3) (opcode : BitVec 7) : Word :=
  imm13.extractLsb' 12 1 ++ imm13.extractLsb' 5 6 ++ regBits rs2 ++ regBits rs1 ++ funct3 ++
    imm13.extractLsb' 1 4 ++ imm13.extractLsb' 11 1 ++ opcode

/-- `pack_U`; it ignores the low 12 bits. -/
def packU (v32 : BitVec 32) (rd : RegIdx) (opcode : BitVec 7) : Word :=
  v32.extractLsb' 12 20 ++ regBits rd ++ opcode

/-- `pack_J`; it ignores `imm21[0]`. -/
def packJ (imm21 : BitVec 21) (rd : RegIdx) (opcode : BitVec 7) : Word :=
  imm21.extractLsb' 20 1 ++ imm21.extractLsb' 1 10 ++ imm21.extractLsb' 11 1 ++ imm21.extractLsb' 12 8 ++
    regBits rd ++ opcode

/-! ### Opcodes (30_encoding.md R78, R86; the values are decision D2 of 92_eei_decisions.md) -/

/-- R-format arithmetic. -/
def opReg : BitVec 7 := 0b0110011#7
/-- `addi`, `slli`, `sltiu`, `srli`. -/
def opImm : BitVec 7 := 0b0010011#7
/-- `lw`. -/
def opLoad : BitVec 7 := 0b0000011#7
/-- `jalr`. -/
def opJalr : BitVec 7 := 0b1100111#7
/-- `sw`. -/
def opStore : BitVec 7 := 0b0100011#7
/-- `beq`, `bne`. -/
def opBranch : BitVec 7 := 0b1100011#7
/-- `lui`. -/
def opLui : BitVec 7 := 0b0110111#7
/-- `auipc`. -/
def opAuipc : BitVec 7 := 0b0010111#7
/-- `jal`. -/
def opJal : BitVec 7 := 0b1101111#7

/-! ### The decoder (30_encoding.md R87, R88) -/

/-- Why a word is no instruction, or a byte sequence no word. EXE treats every such WORD alike: a diagnosed no-op
(48_sentinels_unknown.md R232). -/
inductive DecodeReject where
  /-- R88 (a): the opcode selects no format. -/
  | unknownOpcode (opcode : BitVec 7)
  /-- R88 (b) to (g): the opcode is known and funct3 selects no row. -/
  | unknownFunct3 (opcode : BitVec 7) (funct3 : BitVec 3)
  /-- R88 (b), (c): opcode and funct3 are known and funct7 selects no row. -/
  | unknownFunct7 (opcode : BitVec 7) (funct3 : BitVec 3) (funct7 : BitVec 7)
  /-- Fewer than four bytes: no instruction is shorter than a word (30_encoding.md R70). -/
  | truncated
deriving DecidableEq, Repr

/-- Opcode `0110011`: selected by funct3 and all 7 bits of funct7 (decision D32). -/
def decodeReg (w : Word) : Except DecodeReject Instr :=
  if funct3Of w = 0b000#3 then
    if funct7Of w = 0b0000000#7 then .ok (.add (rdOf w) (rs1Of w) (rs2Of w))
    else if funct7Of w = 0b0100000#7 then .ok (.sub (rdOf w) (rs1Of w) (rs2Of w))
    else .error (.unknownFunct7 (opcodeOf w) (funct3Of w) (funct7Of w))
  else if funct3Of w = 0b001#3 ∨ funct3Of w = 0b011#3 then .error (.unknownFunct3 (opcodeOf w) (funct3Of w))
  else if funct7Of w ≠ 0b0000000#7 then .error (.unknownFunct7 (opcodeOf w) (funct3Of w) (funct7Of w))
  else if funct3Of w = 0b010#3 then .ok (.slt (rdOf w) (rs1Of w) (rs2Of w))
  else if funct3Of w = 0b100#3 then .ok (.xor (rdOf w) (rs1Of w) (rs2Of w))
  else if funct3Of w = 0b101#3 then .ok (.srl (rdOf w) (rs1Of w) (rs2Of w))
  else if funct3Of w = 0b110#3 then .ok (.or (rdOf w) (rs1Of w) (rs2Of w))
  else .ok (.and (rdOf w) (rs1Of w) (rs2Of w))

/-- Opcode `0010011`: selected by funct3, the shifts also by funct7 (30_encoding.md R84; decision D32). -/
def decodeImm (w : Word) : Except DecodeReject Instr :=
  if funct3Of w = 0b000#3 then .ok (.addi (rdOf w) (rs1Of w) (immIOf w))
  else if funct3Of w = 0b011#3 then .ok (.sltiu (rdOf w) (rs1Of w) (immIOf w))
  else if funct3Of w = 0b001#3 then
    if funct7Of w = 0b0000000#7 then .ok (.slli (rdOf w) (rs1Of w) (shamtOf w))
    else .error (.unknownFunct7 (opcodeOf w) (funct3Of w) (funct7Of w))
  else if funct3Of w = 0b101#3 then
    if funct7Of w = 0b0000000#7 then .ok (.srli (rdOf w) (rs1Of w) (shamtOf w))
    else .error (.unknownFunct7 (opcodeOf w) (funct3Of w) (funct7Of w))
  else .error (.unknownFunct3 (opcodeOf w) (funct3Of w))

/-- Opcode `1100011`. -/
def decodeBranch (w : Word) : Except DecodeReject Instr :=
  if funct3Of w = 0b000#3 then .ok (.beq (rs1Of w) (rs2Of w) (immBOf w))
  else if funct3Of w = 0b001#3 then .ok (.bne (rs1Of w) (rs2Of w) (immBOf w))
  else .error (.unknownFunct3 (opcodeOf w) (funct3Of w))

/-- An opcode under which exactly one funct3 selects an instruction (`lw`, `jalr`, `sw`). -/
def decodeOne (w : Word) (funct3 : BitVec 3) (i : Instr) : Except DecodeReject Instr :=
  if funct3Of w = funct3 then .ok i else .error (.unknownFunct3 (opcodeOf w) (funct3Of w))

/-- Format selection by the opcode alone (30_encoding.md R78). -/
def decodeFormat (w : Word) : Except DecodeReject Instr :=
  if opcodeOf w = opReg then decodeReg w
  else if opcodeOf w = opImm then decodeImm w
  else if opcodeOf w = opLoad then decodeOne w 0b010#3 (.lw (rdOf w) (rs1Of w) (immIOf w))
  else if opcodeOf w = opJalr then decodeOne w 0b000#3 (.jalr (rdOf w) (rs1Of w) (immIOf w))
  else if opcodeOf w = opStore then decodeOne w 0b010#3 (.sw (rs2Of w) (rs1Of w) (immSOf w))
  else if opcodeOf w = opBranch then decodeBranch w
  else if opcodeOf w = opLui then .ok (.lui (rdOf w) (immUOf w))
  else if opcodeOf w = opAuipc then .ok (.auipc (rdOf w) (immUOf w))
  else if opcodeOf w = opJal then .ok (.jal (rdOf w) (immJOf w))
  else .error (.unknownOpcode (opcodeOf w))

/-- The decode procedure: the halt word first, on all 32 bits (30_encoding.md R87, R90). The word of `rst` is given its
row's constructor, whose meaning is the unknown-word rule (48_sentinels_unknown.md R231; log entry 8). -/
def decode (w : Word) : Except DecodeReject Instr :=
  if w = Config.haltWord then .ok .halt
  else if w = Config.rstWord then .ok .rst
  else decodeFormat w

/-- The word of four bytes, the first at the lowest address (20_memory.md R53, little-endian; log entry 9). -/
def wordOfBytes (b0 b1 b2 b3 : Byte) : Word := b3 ++ b2 ++ b1 ++ b0

/-- The byte view of a word (20_memory.md R53). -/
def bytesOfWord (w : Word) : List Byte :=
  [w.extractLsb' 0 8, w.extractLsb' 8 8, w.extractLsb' 16 8, w.extractLsb' 24 8]

/-- One instruction from the front of a byte sequence, with the rest of it. -/
def decodeBytes : List Byte → Except DecodeReject (Instr × List Byte)
  | b0 :: b1 :: b2 :: b3 :: rest =>
    match decode (wordOfBytes b0 b1 b2 b3) with
    | .ok i => .ok (i, rest)
    | .error e => .error e
  | _ => .error .truncated

/-- The word of an opcode-table row, every bit above `nbits` zero. -/
def tableWord (nbits w : Nat) : Word := BitVec.ofNat 32 (w % 2 ^ nbits)

/-- The instruction the decoder reads from the opcode-table word `w`, laid out as bytes as the hardware's byte view has
them. -/
def decodeTableWord (nbits w : Nat) : Option Instr :=
  match decodeBytes (bytesOfWord (tableWord nbits w)) with
  | .ok (i, _) => some i
  | .error _ => none

/-! ### The encoder (30_encoding.md R72 to R77, R84 to R86, R90) -/

/-- The word of an instruction. A bit the format does not store is dropped (40_encoder.md R128, R131). -/
def encode : Instr → Word
  | .add rd rs1 rs2 => packR 0b0000000#7 rs2 rs1 0b000#3 rd opReg
  | .sub rd rs1 rs2 => packR 0b0100000#7 rs2 rs1 0b000#3 rd opReg
  | .slt rd rs1 rs2 => packR 0b0000000#7 rs2 rs1 0b010#3 rd opReg
  | .xor rd rs1 rs2 => packR 0b0000000#7 rs2 rs1 0b100#3 rd opReg
  | .srl rd rs1 rs2 => packR 0b0000000#7 rs2 rs1 0b101#3 rd opReg
  | .or rd rs1 rs2 => packR 0b0000000#7 rs2 rs1 0b110#3 rd opReg
  | .and rd rs1 rs2 => packR 0b0000000#7 rs2 rs1 0b111#3 rd opReg
  | .addi rd rs1 imm => packI imm rs1 0b000#3 rd opImm
  | .slli rd rs1 shamt => packI (0b0000000#7 ++ shamt) rs1 0b001#3 rd opImm
  | .sltiu rd rs1 imm => packI imm rs1 0b011#3 rd opImm
  | .srli rd rs1 shamt => packI (0b0000000#7 ++ shamt) rs1 0b101#3 rd opImm
  | .lw rd rs1 imm => packI imm rs1 0b010#3 rd opLoad
  | .jalr rd rs1 imm => packI imm rs1 0b000#3 rd opJalr
  | .sw rs2 rs1 imm => packS imm rs2 rs1 0b010#3 opStore
  | .beq rs1 rs2 off => packB off rs2 rs1 0b000#3 opBranch
  | .bne rs1 rs2 off => packB off rs2 rs1 0b001#3 opBranch
  | .lui rd val => packU val rd opLui
  | .auipc rd val => packU val rd opAuipc
  | .jal rd off => packJ off rd opJal
  | .rst => Config.rstWord
  | .halt => Config.haltWord

/-- The instruction with the bits its word does not store cleared: what decoding its word returns (30_encoding.md R92). -/
def truncateUnstored : Instr → Instr
  | .beq rs1 rs2 off => .beq rs1 rs2 (off.extractLsb' 1 12 ++ 0#1)
  | .bne rs1 rs2 off => .bne rs1 rs2 (off.extractLsb' 1 12 ++ 0#1)
  | .jal rd off => .jal rd (off.extractLsb' 1 20 ++ 0#1)
  | .lui rd val => .lui rd (val.extractLsb' 12 20 ++ 0#12)
  | .auipc rd val => .auipc rd (val.extractLsb' 12 20 ++ 0#12)
  | .add rd rs1 rs2 => .add rd rs1 rs2
  | .sub rd rs1 rs2 => .sub rd rs1 rs2
  | .slt rd rs1 rs2 => .slt rd rs1 rs2
  | .xor rd rs1 rs2 => .xor rd rs1 rs2
  | .srl rd rs1 rs2 => .srl rd rs1 rs2
  | .or rd rs1 rs2 => .or rd rs1 rs2
  | .and rd rs1 rs2 => .and rd rs1 rs2
  | .addi rd rs1 imm => .addi rd rs1 imm
  | .slli rd rs1 shamt => .slli rd rs1 shamt
  | .sltiu rd rs1 imm => .sltiu rd rs1 imm
  | .srli rd rs1 shamt => .srli rd rs1 shamt
  | .lw rd rs1 imm => .lw rd rs1 imm
  | .jalr rd rs1 imm => .jalr rd rs1 imm
  | .sw rs2 rs1 imm => .sw rs2 rs1 imm
  | .rst => .rst
  | .halt => .halt

/-! ### The opcode table (30_encoding.md R86; opcode_table.json) -/

/-- A row: `w` is the instruction exactly when `w & mask = bits`. -/
structure OpcodeRow where
  mnem : Mnem
  mask : Word
  bits : Word
deriving DecidableEq, Repr

/-- The R-format rows. -/
def opcodeRowsR : List OpcodeRow :=
  [⟨.add, 0xFE00707F, 0x00000033⟩, ⟨.sub, 0xFE00707F, 0x40000033⟩, ⟨.slt, 0xFE00707F, 0x00002033⟩,
   ⟨.xor, 0xFE00707F, 0x00004033⟩, ⟨.srl, 0xFE00707F, 0x00005033⟩, ⟨.or, 0xFE00707F, 0x00006033⟩,
   ⟨.and, 0xFE00707F, 0x00007033⟩]

/-- The I-format rows. -/
def opcodeRowsI : List OpcodeRow :=
  [⟨.addi, 0x0000707F, 0x00000013⟩, ⟨.slli, 0xFE00707F, 0x00001013⟩, ⟨.sltiu, 0x0000707F, 0x00003013⟩,
   ⟨.srli, 0xFE00707F, 0x00005013⟩, ⟨.lw, 0x0000707F, 0x00002003⟩, ⟨.jalr, 0x0000707F, 0x00000067⟩]

/-- The rows of the other formats and the two whole words. -/
def opcodeRowsRest : List OpcodeRow :=
  [⟨.sw, 0x0000707F, 0x00002023⟩, ⟨.beq, 0x0000707F, 0x00000063⟩, ⟨.bne, 0x0000707F, 0x00001063⟩,
   ⟨.lui, 0x0000007F, 0x00000037⟩, ⟨.auipc, 0x0000007F, 0x00000017⟩, ⟨.jal, 0x0000007F, 0x0000006F⟩,
   ⟨.rst, 0xFFFFFFFF, 0x00000000⟩, ⟨.halt, 0xFFFFFFFF, 0xFFFFFFFF⟩]

/-- All 21 rows. -/
def opcodeTable : List OpcodeRow := opcodeRowsR ++ opcodeRowsI ++ opcodeRowsRest

/-- The row's test on a word. -/
def rowMatches (row : OpcodeRow) (w : Word) : Bool := w &&& row.mask == row.bits

end Sys2Proof
end

