-- ==== Sys2Proof/Machine/State.lean ====
section
/-!
DEFINITION. The state of both blocks as plain data (10_state.md), the reasons a step stops, and the state after reset.
-/

namespace Sys2Proof.Machine

/-! ### EXE -/

/-- Data memory: (address, word) cells, addresses strictly rising, no cell holding 0. Each 32-bit address is the key of
its own 32-bit cell (10_state.md R31; 20_memory.md R54; log entry 10). -/
abbrev Memory := List (Nat × Word)

/-- A snapshot `(pc, x[0..31])` (41_executor_loop.md R168). -/
structure Snapshot where
  pc : Word
  regs : Vector Word 32
deriving DecidableEq, Repr

/-- The record `Unknown(pc, w)` (41_executor_loop.md R174). -/
structure DiagRecord where
  pc : Word
  word : Word
deriving DecidableEq, Repr

/-- An entry of the final dump (41_executor_loop.md R171). -/
structure DumpEntry where
  addr : Word
  value : Word
deriving DecidableEq, Repr

/-- `EXE.stop` (41_executor_loop.md R169). -/
inductive StopReason where
  | halt
  | offEnd
  | misalignedPc
deriving DecidableEq, Repr

/-- What the head of the loop finds (41_executor_loop.md R162). -/
inductive Fetched where
  | offEnd
  | misaligned
  | word (w : Word)
deriving DecidableEq, Repr

/-- The state `EXE.init` gives a run: registers, pc and data memory (10_state.md R44). -/
structure InitState where
  regs : Vector Word 32
  pc : Word
  mem : Memory
deriving DecidableEq, Repr

/-! ### ENC -/

/-- The error kinds ENC raises, with the value each reports besides the line (60_exceptions.md R241). -/
inductive EncErrorKind where
  | duplicateLabel (name : Text)
  | malformedOperand (text : Text)
  | unknownInstruction (mnemonic : Text)
  | unknownRegister (token : Text)
  | undefinedLabel (token : Text)
  | immediateOutOfRange (value lo hi : Int)
deriving DecidableEq, Repr

/-- The one record of `ENC.err`; the message text is free and not held (40_encoder.md R133; log entry 11). -/
structure EncError where
  kind : EncErrorKind
  line : Nat
deriving DecidableEq, Repr

/-- An instruction line as pass 1 records it (40_encoder.md R113). -/
structure InstrLine where
  lineNo : Nat
  addr : Nat
  text : Text
deriving DecidableEq, Repr

/-- The bookkeeping of one ENC run (10_state.md R32, R33). -/
structure EncBook where
  /-- The symbol table, in order of definition. -/
  symtab : List (Text × Nat)
  /-- The address counter. -/
  addr : Nat
  /-- The 1-based number of the line being processed. -/
  lineNo : Nat
  /-- The instruction lines recorded by pass 1 that pass 2 has still to encode. -/
  recorded : List InstrLine
deriving DecidableEq, Repr

/-- Where an ENC run stands (40_encoder.md R113, R116, R133, R134). -/
inductive EncPhase where
  | idle
  | pass1
  | pass2
  | done
  | failed
deriving DecidableEq, Repr

/-- The state of ENC and its interfaces (00_scope.md R6). -/
structure Encoder where
  /-- `ENC.src`, the lines pass 1 has still to read. -/
  src : List Text
  phase : EncPhase
  book : EncBook
  /-- The words produced so far. -/
  acc : List Word
  /-- `ENC.words`. -/
  words : List Word
  /-- `ENC.err`. -/
  err : Option EncError
deriving DecidableEq, Repr

/-! ### The machine -/

/-- The state of the machine: the three items of EXE's architectural state (10_state.md R20), its input `words` and its
outputs (00_scope.md R6), and ENC. -/
structure State where
  /-- `x[0..31]`; read and written through `State.reg` and `State.setReg` only. -/
  regs : Vector Word 32
  pc : Word
  /-- Data memory. -/
  mem : Memory
  /-- `EXE.imem`, `words[0..N-1]`. -/
  imem : List Word
  /-- `EXE.trace`, oldest first. -/
  trace : List Snapshot
  /-- `EXE.diag`, oldest first. -/
  diag : List DiagRecord
  /-- `EXE.dump`. -/
  dump : Option (List DumpEntry)
  /-- `EXE.stop`. -/
  stop : Option StopReason
  /-- The host has launched a run: EXE has entered its loop (70_reset_and_hazards.md R260, step 6). Cleared by nothing, since
  the stop reason is what tells the end of a run (R264); the field is the model's own (log entry 4). -/
  launched : Bool
  enc : Encoder
deriving DecidableEq, Repr

/-- Why the machine takes no next step: the one thing a model may call a fault of EXE (60_exceptions.md R240). Raised by the
loop only, never by an instruction. -/
inductive Fault where
  /-- The pc lies inside the program and is not a multiple of 4: the run ends abnormally before the fetch
  (41_executor_loop.md R169; 60_exceptions.md R240). `final` is the state as the run leaves it, the stop reason set and
  the dump emitted. Raised by `exeStep`; safe (log entry 5). -/
  | misalignedPc (final : State)
deriving DecidableEq, Repr

/-- Why an instruction has no meaning. -/
inductive Refusal where
  /-- No meaning written yet; raised by no arm of `exec`, since every instruction has its meaning. Safe. -/
  | notModelled (mnemonic : String)
deriving DecidableEq, Repr

/-- The outcome of a step. -/
abbrev StepOutcome := Host.Outcome State Fault Refusal

/-! ### Reset -/

/-- ENC's bookkeeping at the start of a run (10_state.md R43). -/
def EncBook.reset : EncBook := { symtab := [], addr := 0, lineNo := 0, recorded := [] }

/-- ENC at reset (10_state.md R43; 70_reset_and_hazards.md R261). -/
def Encoder.reset : Encoder :=
  { src := [], phase := .idle, book := EncBook.reset, acc := [], words := [], err := none }

/-- The registers at reset: 0 but for `x[2] = seed` (10_state.md R40). -/
def resetRegs (seed : Word) : Vector Word 32 := (Vector.replicate 32 (0 : Word)).set 2 seed

/-- The initial state of reset, `SP_SEED` as an argument (10_state.md R40 to R42). -/
def InitState.reset (seed : Word) : InitState := { regs := resetRegs seed, pc := Config.entryPc, mem := [] }

/-- The machine after reset with `SP_SEED = seed` (10_state.md R40 to R44). `words` is supplied by the host, so none is
placed and no run is launched (R30; log entry 4). -/
def State.resetWith (seed : Word) : State :=
  { regs := resetRegs seed, pc := Config.entryPc, mem := [], imem := [], trace := [], diag := [], dump := none
    stop := none, launched := false, enc := Encoder.reset }

/-- The machine after reset. `x[2]` is the OPEN parameter `SP_SEED` (log entry 1). -/
def State.reset : State := State.resetWith Config.spSeed

end Sys2Proof.Machine
end

