-- ==== Sys2Proof/Machine/EncText.lean ====
section
/-!
DEFINITION. ENC's reading of text: line preprocessing, labels, splitting, literals and names (40_encoder.md R111, R112,
R116, R120, R121, R126).
-/

namespace Sys2Proof.Machine

/-! ### Whitespace and comments (R111) -/

/-- Space, tab, carriage return, form feed, vertical tab (decision D22). -/
def isSpace (c : Char) : Bool :=
  c == ' ' || c == '\t' || c == '\r' || c == '\x0c' || c == '\x0b'

/-- The text without its leading whitespace. -/
def trimLeft (t : Text) : Text := t.dropWhile isSpace

/-- The text without its leading and trailing whitespace. -/
def trim (t : Text) : Text := (trimLeft (trimLeft t).reverse).reverse

/-- The text up to the first `#`. -/
def stripComment (t : Text) : Text := t.takeWhile (· != '#')

/-- Line preprocessing; a line that leaves nothing is blank. -/
def preprocess (t : Text) : Text := trim (stripComment t)

/-! ### Labels (R112) -/

/-- `A-Z`, `a-z`, `_`, `.` (decision D23). -/
def isLabelStart (c : Char) : Bool := c.isAlpha || c == '_' || c == '.'

/-- `A-Z`, `a-z`, `0-9`, `_`, `.`. -/
def isLabelChar (c : Char) : Bool := isLabelStart c || c.isDigit

/-- A well-formed label name. -/
def isLabelName : Text → Bool
  | [] => false
  | c :: cs => isLabelStart c && cs.all isLabelChar

/-- The text before and after the first `:`, each trimmed; absent where there is none. -/
def splitLabel (t : Text) : Option (Text × Text) :=
  match t.dropWhile (· != ':') with
  | [] => none
  | _ :: rest => some (trim (t.takeWhile (· != ':')), trim rest)

/-- The instruction text of a source line, blank where it holds none: the line without comment, surrounding whitespace and
label (R111 to R113). -/
def instructionText (line : Text) : Text :=
  match splitLabel (preprocess line) with
  | none => preprocess line
  | some (_, rest) => rest

/-! ### Mnemonic and operands (R116) -/

/-- The longest prefix that holds no whitespace. -/
def mnemonicText (t : Text) : Text := t.takeWhile fun c => !isSpace c

/-- What follows the mnemonic, trimmed. -/
def operandText (t : Text) : Text := trim (t.dropWhile fun c => !isSpace c)

/-- The pieces between commas. -/
def splitCommas : Text → List Text
  | [] => [[]]
  | c :: cs =>
    if c == ',' then [] :: splitCommas cs
    else
      match splitCommas cs with
      | [] => [[c]]
      | p :: ps => (c :: p) :: ps

/-- The operand list: none for an empty text, else the trimmed pieces, none of which may be empty (decision D21). -/
def operandList (t : Text) : Except EncErrorKind (List Text) :=
  if t.isEmpty then .ok []
  else
    if ((splitCommas t).map trim).any List.isEmpty then .error (.malformedOperand t)
    else .ok ((splitCommas t).map trim)

/-! ### Literals (R121; decision D22) -/

/-- The value of a decimal digit. -/
def decDigit (c : Char) : Option Nat := if c.isDigit then some (c.toNat - 48) else none

/-- The value of a hexadecimal digit of either case. -/
def hexDigit (c : Char) : Option Nat :=
  if c.isDigit then some (c.toNat - 48)
  else if 97 ≤ c.toNat ∧ c.toNat ≤ 102 then some (c.toNat - 87)
  else if 65 ≤ c.toNat ∧ c.toNat ≤ 70 then some (c.toNat - 55)
  else none

/-- The number whose digits follow the prefix read so far. -/
def digitsValue (base : Nat) (digit : Char → Option Nat) : Text → Nat → Option Nat
  | [], acc => some acc
  | c :: cs, acc =>
    match digit c with
    | some d => digitsValue base digit cs (base * acc + d)
    | none => none

/-- One or more digits of a base. -/
def numeral (base : Nat) (digit : Char → Option Nat) (t : Text) : Option Nat :=
  if t.isEmpty then none else digitsValue base digit t 0

/-- A literal without its sign: `0x` or `0X` and hexadecimal digits, or decimal digits. -/
def magnitude : Text → Option Nat
  | '0' :: 'x' :: ds => numeral 16 hexDigit ds
  | '0' :: 'X' :: ds => numeral 16 hexDigit ds
  | t => numeral 10 decDigit t

/-- A literal: an optional sign, which applies to hexadecimal too, and a magnitude. -/
def literal : Text → Option Int
  | '-' :: t => (magnitude t).map fun n => -(n : Int)
  | '+' :: t => (magnitude t).map fun n => (n : Int)
  | t => (magnitude t).map fun n => (n : Int)

/-! ### Register names (R120; 10_state.md R23; decisions D3, D35) -/

/-- A number below 100 in decimal without leading zeros. -/
def decimal2 (n : Nat) : Text :=
  if n < 10 then [Char.ofNat (48 + n)] else [Char.ofNat (48 + n / 10), Char.ofNat (48 + n % 10)]

/-- The 32 positional names. -/
def positionalNames : List (Text × RegIdx) := (List.finRange 32).map fun r => ('x' :: decimal2 r.val, r)

/-- The aliases of registers 0 to 9. -/
def aliasNamesLow : List (Text × RegIdx) :=
  [(['z', 'e', 'r', 'o'], 0), (['r', 'a'], 1), (['s', 'p'], 2), (['g', 'p'], 3), (['t', 'p'], 4), (['t', '0'], 5),
   (['t', '1'], 6), (['t', '2'], 7), (['s', '0'], 8), (['f', 'p'], 8), (['s', '1'], 9)]

/-- The aliases of registers 10 to 17. -/
def aliasNamesArg : List (Text × RegIdx) :=
  [(['a', '0'], 10), (['a', '1'], 11), (['a', '2'], 12), (['a', '3'], 13), (['a', '4'], 14), (['a', '5'], 15),
   (['a', '6'], 16), (['a', '7'], 17)]

/-- The aliases of registers 18 to 31. -/
def aliasNamesHigh : List (Text × RegIdx) :=
  [(['s', '2'], 18), (['s', '3'], 19), (['s', '4'], 20), (['s', '5'], 21), (['s', '6'], 22), (['s', '7'], 23),
   (['s', '8'], 24), (['s', '9'], 25), (['s', '1', '0'], 26), (['s', '1', '1'], 27), (['t', '3'], 28),
   (['t', '4'], 29), (['t', '5'], 30), (['t', '6'], 31)]

/-- The 65 register names. -/
def registerNames : List (Text × RegIdx) := positionalNames ++ aliasNamesLow ++ aliasNamesArg ++ aliasNamesHigh

/-- The value of the first entry with a name. -/
def lookupName {α : Type} : List (Text × α) → Text → Option α
  | [], _ => none
  | (k, v) :: rest, t => if k = t then some v else lookupName rest t

/-! ### Mnemonics (R117; decision D24) -/

/-- The R-format names. -/
def mnemonicNamesR : List (Text × Mnem) :=
  [(['a', 'd', 'd'], .add), (['s', 'u', 'b'], .sub), (['s', 'l', 't'], .slt), (['x', 'o', 'r'], .xor),
   (['s', 'r', 'l'], .srl), (['o', 'r'], .or), (['a', 'n', 'd'], .and)]

/-- The I-format names. -/
def mnemonicNamesI : List (Text × Mnem) :=
  [(['a', 'd', 'd', 'i'], .addi), (['s', 'l', 'l', 'i'], .slli), (['s', 'l', 't', 'i', 'u'], .sltiu),
   (['s', 'r', 'l', 'i'], .srli), (['l', 'w'], .lw), (['j', 'a', 'l', 'r'], .jalr)]

/-- The other names. -/
def mnemonicNamesRest : List (Text × Mnem) :=
  [(['s', 'w'], .sw), (['b', 'e', 'q'], .beq), (['b', 'n', 'e'], .bne), (['l', 'u', 'i'], .lui),
   (['a', 'u', 'i', 'p', 'c'], .auipc), (['j', 'a', 'l'], .jal), (['r', 's', 't'], .rst), (['h', 'a', 'l', 't'], .halt)]

/-- The 21 mnemonics. -/
def mnemonicNames : List (Text × Mnem) := mnemonicNamesR ++ mnemonicNamesI ++ mnemonicNamesRest

/-! ### Memory-offset operands (R126) -/

/-- `imm(rs1)` split into its offset token and its base token: both nonempty, no parenthesis inside either, nothing
after the `)`. -/
def splitMemOffset (t : Text) : Option (Text × Text) :=
  match t.dropWhile (· != '(') with
  | [] => none
  | _ :: inside =>
    let off := trim (t.takeWhile (· != '('))
    let base := trim (inside.takeWhile (· != ')'))
    if inside.dropWhile (· != ')') = [')'] ∧ off ≠ [] ∧ base ≠ [] ∧ ')' ∉ off ∧ '(' ∉ base then some (off, base)
    else none

end Sys2Proof.Machine
end

