-- ==== Sys2Proof/Machine/EncLine.lean ====
section
/-!
DEFINITION. ENC's encoding of one instruction line: registers, immediates and labels, range checks, operand shapes and the
order of checks (40_encoder.md R116 to R132, R136).
-/

namespace Sys2Proof.Machine

/-! ### Registers and immediates -/

/-- R120. -/
def resolveReg (t : Text) : Except EncErrorKind RegIdx :=
  match lookupName registerNames t with
  | some r => .ok r
  | none => .error (.unknownRegister t)

/-- The kind of an immediate position (R122; decision D25). -/
inductive ImmKind where
  /-- A branch or jump target: a label gives its address less that of the instruction (R123). -/
  | rel
  /-- A memory offset: a label gives its address (R124). -/
  | abs
  /-- No label (R125). -/
  | lit
deriving DecidableEq, Repr

/-- What a label gives in a position of a kind, at instruction address `addr` (R122 to R125). -/
def labelValue (kind : ImmKind) (symtab : List (Text × Nat)) (addr : Nat) (t : Text) : Option Int :=
  match kind with
  | .rel => (lookupName symtab t).map fun a => (a : Int) - (addr : Int)
  | .abs => (lookupName symtab t).map fun a => (a : Int)
  | .lit => none

/-- The literal test first, then the label (R122; decision D28), else `UndefinedLabel` (R125). -/
def resolveImm (kind : ImmKind) (symtab : List (Text × Nat)) (addr : Nat) (t : Text) : Except EncErrorKind Int :=
  match literal t with
  | some v => .ok v
  | none =>
    match labelValue kind symtab addr t with
    | some v => .ok v
    | none => .error (.undefinedLabel t)

/-- A memory-offset operand: its shape, then its offset token, then its base register (R126, R136). -/
def resolveMemOffset (kind : ImmKind) (symtab : List (Text × Nat)) (addr : Nat) (t : Text) :
    Except EncErrorKind (Int × RegIdx) :=
  match splitMemOffset t with
  | none => .error (.malformedOperand t)
  | some (off, base) =>
    match resolveImm kind symtab addr off with
    | .error e => .error e
    | .ok v =>
      match resolveReg base with
      | .error e => .error e
      | .ok r => .ok (v, r)

/-! ### Range checks (R127) -/

/-- A value within the range of its format, else `ImmediateOutOfRange` naming both bounds. -/
def checkRange (lo hi v : Int) : Except EncErrorKind Int :=
  if lo ≤ v ∧ v ≤ hi then .ok v else .error (.immediateOutOfRange v lo hi)

/-- I and S formats. -/
def rangeIS (v : Int) : Except EncErrorKind Int := checkRange (-2048) 2047 v

/-- B format. -/
def rangeB (v : Int) : Except EncErrorKind Int := checkRange (-4096) 4095 v

/-- J format. -/
def rangeJ (v : Int) : Except EncErrorKind Int := checkRange (-1048576) 1048575 v

/-- `twos_12` (00_scope.md R9). -/
def twos12 (v : Int) : BitVec 12 := BitVec.ofInt 12 v
/-- `twos_13`. -/
def twos13 (v : Int) : BitVec 13 := BitVec.ofInt 13 v
/-- `twos_21`. -/
def twos21 (v : Int) : BitVec 21 := BitVec.ofInt 21 v
/-- `twos_32`. -/
def twos32 (v : Int) : BitVec 32 := BitVec.ofInt 32 v
/-- `v mod 32`, the low 5 bits, no range check (R129). -/
def twos5 (v : Int) : BitVec 5 := BitVec.ofInt 5 v

/-! ### Operand shapes (R118, R119)

Each reads its operands from left to right and checks the range last (R136). `text` is the operand text a wrong count is
reported with. -/

/-- `rd, rs1, rs2`. -/
def regRegReg (mk : RegIdx → RegIdx → RegIdx → Instr) (text : Text) : List Text → Except EncErrorKind Instr
  | [a, b, c] => do
    let rd ← resolveReg a
    let rs1 ← resolveReg b
    let rs2 ← resolveReg c
    pure (mk rd rs1 rs2)
  | _ => .error (.malformedOperand text)

/-- `rd, rs1, imm` with a literal, checked by `range`. -/
def regRegImm (mk : RegIdx → RegIdx → Int → Instr) (range : Int → Except EncErrorKind Int)
    (symtab : List (Text × Nat)) (addr : Nat) (text : Text) : List Text → Except EncErrorKind Instr
  | [a, b, c] => do
    let rd ← resolveReg a
    let rs1 ← resolveReg b
    let v ← resolveImm .lit symtab addr c
    let v ← range v
    pure (mk rd rs1 v)
  | _ => .error (.malformedOperand text)

/-- `r, imm(rs1)`, the offset of kind `kind`. -/
def regMemOffset (mk : RegIdx → RegIdx → Int → Instr) (kind : ImmKind)
    (symtab : List (Text × Nat)) (addr : Nat) (text : Text) : List Text → Except EncErrorKind Instr
  | [a, b] => do
    let r ← resolveReg a
    let vr ← resolveMemOffset kind symtab addr b
    let v ← rangeIS vr.1
    pure (mk r vr.2 v)
  | _ => .error (.malformedOperand text)

/-- `rs1, rs2, target`. -/
def regRegTarget (mk : RegIdx → RegIdx → Int → Instr)
    (symtab : List (Text × Nat)) (addr : Nat) (text : Text) : List Text → Except EncErrorKind Instr
  | [a, b, c] => do
    let rs1 ← resolveReg a
    let rs2 ← resolveReg b
    let v ← resolveImm .rel symtab addr c
    let v ← rangeB v
    pure (mk rs1 rs2 v)
  | _ => .error (.malformedOperand text)

/-- `rd, value`, no range check (R131). -/
def regValue (mk : RegIdx → Int → Instr)
    (symtab : List (Text × Nat)) (addr : Nat) (text : Text) : List Text → Except EncErrorKind Instr
  | [a, b] => do
    let rd ← resolveReg a
    let v ← resolveImm .lit symtab addr b
    pure (mk rd v)
  | _ => .error (.malformedOperand text)

/-- `rd, target`. -/
def regTarget (mk : RegIdx → Int → Instr)
    (symtab : List (Text × Nat)) (addr : Nat) (text : Text) : List Text → Except EncErrorKind Instr
  | [a, b] => do
    let rd ← resolveReg a
    let v ← resolveImm .rel symtab addr b
    let v ← rangeJ v
    pure (mk rd v)
  | _ => .error (.malformedOperand text)

/-- `jalr`: three operands, or two with the memory-offset shape (R118; decision D21). -/
def jalrOperands (symtab : List (Text × Nat)) (addr : Nat) (text : Text) : List Text → Except EncErrorKind Instr
  | [a, b] => regMemOffset (fun rd rs1 v => .jalr rd rs1 (twos12 v)) .lit symtab addr text [a, b]
  | ops => regRegImm (fun rd rs1 v => .jalr rd rs1 (twos12 v)) rangeIS symtab addr text ops

/-- No operand (R132). -/
def noOperand (i : Instr) (text : Text) : List Text → Except EncErrorKind Instr
  | [] => .ok i
  | _ => .error (.malformedOperand text)

/-- The operands of a mnemonic. -/
def parseOperands (m : Mnem) (symtab : List (Text × Nat)) (addr : Nat) (text : Text) (ops : List Text) :
    Except EncErrorKind Instr :=
  match m with
  | .add => regRegReg .add text ops
  | .sub => regRegReg .sub text ops
  | .slt => regRegReg .slt text ops
  | .xor => regRegReg .xor text ops
  | .srl => regRegReg .srl text ops
  | .or => regRegReg .or text ops
  | .and => regRegReg .and text ops
  | .addi => regRegImm (fun rd rs1 v => .addi rd rs1 (twos12 v)) rangeIS symtab addr text ops
  | .slli => regRegImm (fun rd rs1 v => .slli rd rs1 (twos5 v)) .ok symtab addr text ops
  | .sltiu => regRegImm (fun rd rs1 v => .sltiu rd rs1 (twos12 v)) .ok symtab addr text ops
  | .srli => regRegImm (fun rd rs1 v => .srli rd rs1 (twos5 v)) .ok symtab addr text ops
  | .lw => regMemOffset (fun rd rs1 v => .lw rd rs1 (twos12 v)) .abs symtab addr text ops
  | .jalr => jalrOperands symtab addr text ops
  | .sw => regMemOffset (fun rs2 rs1 v => .sw rs2 rs1 (twos12 v)) .abs symtab addr text ops
  | .beq => regRegTarget (fun rs1 rs2 v => .beq rs1 rs2 (twos13 v)) symtab addr text ops
  | .bne => regRegTarget (fun rs1 rs2 v => .bne rs1 rs2 (twos13 v)) symtab addr text ops
  | .lui => regValue (fun rd v => .lui rd (twos32 v)) symtab addr text ops
  | .auipc => regValue (fun rd v => .auipc rd (twos32 v)) symtab addr text ops
  | .jal => regTarget (fun rd v => .jal rd (twos21 v)) symtab addr text ops
  | .rst => noOperand .rst text ops
  | .halt => noOperand .halt text ops

/-! ### The line (R116, R136) -/

/-- An instruction line as an instruction: mnemonic, splitting, count, operands, range, in that order.

DESIGN CHOICE (log entry 18): of a labelled line whose rest holds another `:`, R112 says that its first token is no mnemonic
and that it fails with `UnknownInstruction`. Where that token is a mnemonic all the same (`a: halt b:`), the checks of R116
to R125 apply in the order of R136 like on any other line, and the line fails with their error. -/
def parseLine (symtab : List (Text × Nat)) (addr : Nat) (t : Text) : Except EncErrorKind Instr :=
  match lookupName mnemonicNames (mnemonicText t) with
  | none => .error (.unknownInstruction (mnemonicText t))
  | some m =>
    match operandList (operandText t) with
    | .error e => .error e
    | .ok ops => parseOperands m symtab addr (operandText t) ops

/-- The word of a recorded instruction line, or the error with its line number (R133). -/
def encodeLine (symtab : List (Text × Nat)) (r : InstrLine) : Except EncError Word :=
  match parseLine symtab r.addr r.text with
  | .ok i => .ok (encode i)
  | .error k => .error { kind := k, line := r.lineNo }

end Sys2Proof.Machine
end

