-- ==== Sys2Proof/Machine/EncRun.lean ====
section
/-!
DEFINITION. The two passes of ENC (40_encoder.md R113 to R116, R133, R134): as one function of the source, and as an agent
that moves one line at a time.
-/

namespace Sys2Proof.Machine

/-! ### Pass 1 (R113 to R115) -/

/-- Record a nonblank instruction text at the address counter and advance the counter by 4; a blank rest does neither. -/
def recordLine (b : EncBook) (t : Text) : EncBook :=
  if t.isEmpty then b
  else { b with addr := b.addr + 4
                recorded := b.recorded ++ [{ lineNo := b.lineNo, addr := b.addr, text := t }] }

/-- Define a label at the address counter: its name well formed (R112), then not yet defined (R114). -/
def defineLabel (b : EncBook) (name : Text) : Except EncErrorKind EncBook :=
  if isLabelName name then
    match lookupName b.symtab name with
    | some _ => .error (.duplicateLabel name)
    | none => .ok { b with symtab := b.symtab ++ [(name, b.addr)] }
  else .error (.malformedOperand name)

/-- Pass 1 on a preprocessed line; the line number is already that of the line. -/
def scanText (b : EncBook) (t : Text) : Except EncErrorKind EncBook :=
  match splitLabel t with
  | none => .ok (recordLine b t)
  | some (name, rest) =>
    match defineLabel b name with
    | .error k => .error k
    | .ok b' => .ok (recordLine b' rest)

/-- Pass 1 on a source line. -/
def scanLine (b : EncBook) (line : Text) : Except EncError EncBook :=
  match scanText { b with lineNo := b.lineNo + 1 } (preprocess line) with
  | .ok b' => .ok b'
  | .error k => .error { kind := k, line := b.lineNo + 1 }

/-- Pass 1 on the lines still to read. -/
def scanAll : EncBook → List Text → Except EncError EncBook
  | b, [] => .ok b
  | b, line :: rest =>
    match scanLine b line with
    | .ok b' => scanAll b' rest
    | .error e => .error e

/-! ### Pass 2 (R116, R134) -/

/-- Pass 2 on the recorded lines, in order. -/
def encodeAll (symtab : List (Text × Nat)) : List InstrLine → Except EncError (List Word)
  | [] => .ok []
  | r :: rest =>
    match encodeLine symtab r with
    | .error e => .error e
    | .ok w =>
      match encodeAll symtab rest with
      | .error e => .error e
      | .ok ws => .ok (w :: ws)

/-- The contract of ENC: all the words of the source, or exactly one error (R110). -/
def assemble (src : List Text) : Except EncError (List Word) :=
  match scanAll EncBook.reset src with
  | .error e => .error e
  | .ok b => encodeAll b.symtab b.recorded

/-! ### ENC as an agent

One move reads one source line (pass 1), encodes one recorded line (pass 2), or ends a pass (log entry 7). -/

/-- An ENC run is in progress. -/
def Encoder.running (e : Encoder) : Bool :=
  match e.phase with
  | .pass1 => true
  | .pass2 => true
  | .idle => false
  | .done => false
  | .failed => false

/-- Place the source and start a run from ENC's reset (70_reset_and_hazards.md R261). -/
def Encoder.start (src : List Text) : Encoder := { Encoder.reset with src := src, phase := .pass1 }

/-- The first error ends the run: one record, no word, nothing else left (R133; 70_reset_and_hazards.md R261). -/
def Encoder.failed (err : EncError) : Encoder := { Encoder.reset with phase := .failed, err := some err }

/-- Both passes complete: the words are released and the bookkeeping is discarded (R134; 10_state.md R32, R33). -/
def Encoder.finished (ws : List Word) : Encoder := { Encoder.reset with phase := .done, words := ws }

/-- A move of pass 1. -/
def Encoder.movePass1 (e : Encoder) : Encoder :=
  match e.src with
  | [] => { e with phase := .pass2 }
  | line :: rest =>
    match scanLine e.book line with
    | .ok b => { e with src := rest, book := b }
    | .error err => Encoder.failed err

/-- A move of pass 2. -/
def Encoder.movePass2 (e : Encoder) : Encoder :=
  match e.book.recorded with
  | [] => Encoder.finished e.acc
  | r :: rest =>
    match encodeLine e.book.symtab r with
    | .ok w => { e with book := { e.book with lineNo := r.lineNo, recorded := rest }, acc := e.acc ++ [w] }
    | .error err => Encoder.failed err

/-- ENC's move; an ENC that is not running keeps still. -/
def Encoder.move (e : Encoder) : Encoder :=
  match e.phase with
  | .pass1 => e.movePass1
  | .pass2 => e.movePass2
  | .idle => e
  | .done => e
  | .failed => e

/-- ENC's move as a step of the machine: EXE is untouched (00_scope.md R5). -/
def encStep (s : State) : State := { s with enc := s.enc.move }

end Sys2Proof.Machine
end

