-- ==== Sys2Proof/Machine/Ops.lean ====
section
/-!
DEFINITION. The named operations over registers, data memory, instruction memory and EXE's outputs. An instruction's
meaning is written with these alone.
-/

namespace Sys2Proof.Machine

/-! ### Registers (10_state.md R21, R22) -/

/-- `x[r]`; `x[0]` reads as 0. -/
def readRegs (regs : Vector Word 32) (r : RegIdx) : Word := if r = 0 then 0#32 else regs[r.val]

/-- `x[r] <- v`; a write to `x[0]` is discarded. -/
def writeRegs (regs : Vector Word 32) (r : RegIdx) (v : Word) : Vector Word 32 :=
  if r = 0 then regs else regs.set r.val v

/-- `x[r]`. -/
def State.reg (s : State) (r : RegIdx) : Word := readRegs s.regs r

/-- `x[r] <- v`. -/
def State.setReg (s : State) (r : RegIdx) (v : Word) : State := { s with regs := writeRegs s.regs r v }

/-! ### Data memory (20_memory.md R51) -/

/-- The content of the cell keyed `a`; an unlisted address reads 0 (10_state.md R42). -/
def readCell : Memory → Nat → Word
  | [], _ => 0#32
  | (k, v) :: rest, a => if k = a then v else readCell rest a

/-- Replace the cell keyed `a`, keeping addresses strictly rising and listing no 0. -/
def writeCell : Memory → Nat → Word → Memory
  | [], a, v => if v = 0#32 then [] else [(a, v)]
  | (k, u) :: rest, a, v =>
    if a < k then (if v = 0#32 then (k, u) :: rest else (a, v) :: (k, u) :: rest)
    else if a = k then (if v = 0#32 then rest else (a, v) :: rest)
    else (k, u) :: writeCell rest a v

/-- The canonical form: addresses strictly rising and below 2^32, no cell holding what an unlisted address reads as. -/
def Memory.wf (m : Memory) : Bool :=
  decide (m.Pairwise fun c d => c.1 < d.1) && m.all fun c => decide (c.1 < 2 ^ 32) && decide (c.2 ≠ 0#32)

/-- `MemRead(addr, 4)`: the cell of exactly that address, aligned or not (20_memory.md R51, R54). -/
def State.load (s : State) (addr : Word) : Word := readCell s.mem addr.toNat

/-- `MemWrite(addr, 4, v)`. -/
def State.store (s : State) (addr v : Word) : State := { s with mem := writeCell s.mem addr.toNat v }

/-! ### Fetch (20_memory.md R52; 41_executor_loop.md R162, R163) -/

/-- The two tests at the head of the loop, in their order, and the fetch. -/
def State.fetch (s : State) : Fetched :=
  if 4 * s.imem.length ≤ s.pc.toNat then .offEnd
  else if s.pc.toNat % 4 ≠ 0 then .misaligned
  else .word (s.imem.getD (s.pc.toNat / 4) 0#32)

/-! ### Completing a step (41_executor_loop.md R162, R166, R168) -/

/-- The snapshot of a state: pc and the 32 registers as they read. -/
def State.snapshot (s : State) : Snapshot := { pc := s.pc, regs := Vector.ofFn fun r => s.reg r }

/-- Append the snapshot of the state as it is. -/
def State.appendSnapshot (s : State) : State := { s with trace := s.trace ++ [s.snapshot] }

/-- End the step: the pc becomes `npc` and the snapshot after the step is appended. -/
def State.complete (s : State) (npc : Word) : State := State.appendSnapshot { s with pc := npc }

/-- The default next pc (41_executor_loop.md R166; 10_state.md R26: modulo 2^32). -/
def State.nextPc (s : State) : Word := s.pc + 4#32

/-- The whole step of an instruction that writes `x[rd]` and takes the default next pc (41_executor_loop.md R166, R167). -/
def State.writeBack (s : State) (rd : RegIdx) (v : Word) : State := (s.setReg rd v).complete s.nextPc

/-- `diag Unknown(pc, w)` (41_executor_loop.md R174). -/
def State.report (s : State) (w : Word) : State := { s with diag := s.diag ++ [{ pc := s.pc, word := w }] }

/-- An unknown word: one diagnostic, `pc + 4`, one snapshot (48_sentinels_unknown.md R232). -/
def State.unknownWord (s : State) (w : Word) : State := (s.report w).complete s.nextPc

/-! ### The end of a run (41_executor_loop.md R169, R171)

EXE takes no exception: there is no saved pc, no cause, no vector and no return (60_exceptions.md R240, R245, R246).
What takes their place is `stop`. -/

/-- The address of dump entry `k`, modulo 2^32. -/
def dumpAddr (k : Nat) : Word := Config.dumpBase + BitVec.ofNat 32 (4 * k)

/-- The dump of data memory, `DUMP_WORDS` cells from `DUMP_BASE`. -/
def State.dumpEntries (s : State) : List DumpEntry :=
  (List.range Config.dumpWords).map fun k => { addr := dumpAddr k, value := s.load (dumpAddr k) }

/-- A run of EXE is in progress: it has been launched and no stop reason is set. A run ends when a stop reason occurs and
not otherwise, so a run of no word is in progress too until it has ended by `OffEnd` (70_reset_and_hazards.md R260, R264). -/
def State.exeRunning (s : State) : Bool := s.launched && s.stop.isNone

/-- `stop(reason)`: the reason is set and the dump emitted; the architectural state is kept as it is. -/
def State.endRun (s : State) (reason : StopReason) : State :=
  { s with stop := some reason, dump := some s.dumpEntries }

/-- The halt word is fetched: a snapshot only if `HALT_SNAPSHOT` is set, then `stop(Halt)` (41_executor_loop.md R164). -/
def State.haltRun (s : State) : State :=
  (if Config.haltSnapshot then s.appendSnapshot else s).endRun .halt

/-! ### Placing an instruction where the next fetch reads it -/

/-- `words` with word `k` replaced, extended by words of `rst` where it is shorter. -/
def placeWord (imem : List Word) (k : Nat) (w : Word) : List Word :=
  (imem ++ List.replicate (k + 1 - imem.length) Config.rstWord).set k w

/-- The pc rounded down to a multiple of 4: a fetch is made from such a pc only (20_memory.md R52). -/
def alignPc (pc : Word) : Word := pc &&& 0xFFFFFFFC#32

end Sys2Proof.Machine
end

