-- ==== Sys2Proof/Machine/Launch.lean ====
section
/-!
DEFINITION. What the host does outside a run (00_scope.md R5, R6; 70_reset_and_hazards.md R262). No step calls these, and
during a run the host has no move: each changes nothing then.
-/

namespace Sys2Proof.Machine

/-- `0 <= N <= 2^30` (70_reset_and_hazards.md R262). -/
def maxWords : Nat := 2 ^ 30

/-! ### When the host may move (00_scope.md R5) -/

/-- Neither agent is in the middle of a run: the host may move. -/
def State.atRest (s : State) : Bool := !s.enc.running && !s.exeRunning

/-! ### The host's moves -/

/-- Place the source on `ENC.src` and start an ENC run; no move during a run. -/
def State.startEncoder (s : State) (src : List Text) : State :=
  if s.atRest then { s with enc := Encoder.start src } else s

/-- An initial state a run may be given: `x[0] = 0`, the cells in canonical form (10_state.md R44; decision D36). -/
def InitState.ok (init : InitState) : Bool := init.regs[0] == 0#32 && init.mem.wf

/-- Start an EXE run: take the initial state and the words, with the outputs at reset (70_reset_and_hazards.md R260); no move
during a run. -/
def State.launch (s : State) (init : InitState) (words : List Word) : State :=
  if s.atRest then
    { s with regs := init.regs, pc := init.pc, mem := init.mem, imem := words, trace := [], diag := [], dump := none
             stop := none, launched := true }
  else s

/-- Start an EXE run from reset. -/
def State.launchReset (s : State) (words : List Word) : State := s.launch (InitState.reset Config.spSeed) words

/-- Carry `ENC.words`, once they are released, to `EXE.imem` and start a run from reset (00_scope.md R5). -/
def State.carryWords (s : State) : State := if s.enc.phase = .done then s.launchReset s.enc.words else s

end Sys2Proof.Machine
end

