-- ==== Sys2Proof/Machine/Operands.lean ====
section
/-!
DEFINITION. Every operand form of EXE: the immediates as 32-bit vectors (30_encoding.md R79 to R85), the shift amounts,
the effective address, branch and jump targets, and which register and cell an instruction names.
-/

namespace Sys2Proof.Machine

/-- `sext_12` (30_encoding.md R79, R80). -/
def sext12 (imm : BitVec 12) : Word := imm.signExtend 32

/-- `zext_12` (00_scope.md R9). -/
def zext12 (imm : BitVec 12) : Word := imm.setWidth 32

/-- `sext_13` (30_encoding.md R81). -/
def sext13 (off : BitVec 13) : Word := off.signExtend 32

/-- `sext_21` (30_encoding.md R83). -/
def sext21 (off : BitVec 21) : Word := off.signExtend 32

/-- `E(imm12)` of `sltiu` under one setting of `SLTIU_IMM_EXT` (43_i_type.md R203). -/
def extendSltiu (ext : ImmExt) (imm : BitVec 12) : Word :=
  match ext with
  | .sext => sext12 imm
  | .zext => zext12 imm

/-- `E(imm12)` under the hardware's setting (log entry 3). -/
def sltiuImm (imm : BitVec 12) : Word := extendSltiu Config.sltiuImmExt imm

/-- A register shift amount, the low 5 bits (42_r_type.md R197). -/
def regShamt (v : Word) : Nat := (v &&& 0x1F#32).toNat

/-- The effective address of `lw` and `sw`, modulo 2^32 (43_i_type.md R205; 44_s_type.md R210). -/
def State.effAddr (s : State) (rs1 : RegIdx) (imm : BitVec 12) : Word := s.reg rs1 + sext12 imm

/-- The target of `jalr`: bit 0 of the sum cleared (43_i_type.md R204). -/
def State.jalrTarget (s : State) (rs1 : RegIdx) (imm : BitVec 12) : Word := (s.reg rs1 + sext12 imm) &&& 0xFFFFFFFE#32

/-- The target of a branch (45_b_type.md R215). -/
def State.branchTarget (s : State) (off : BitVec 13) : Word := s.pc + sext13 off

/-- The target of `jal` (47_j_type.md R225). -/
def State.jalTarget (s : State) (off : BitVec 21) : Word := s.pc + sext21 off

/-- The register the `rd` field names, for the formats that have one (10_state.md R24). -/
def destOf : Instr → Option RegIdx
  | .add rd _ _ => some rd
  | .sub rd _ _ => some rd
  | .slt rd _ _ => some rd
  | .xor rd _ _ => some rd
  | .srl rd _ _ => some rd
  | .or rd _ _ => some rd
  | .and rd _ _ => some rd
  | .addi rd _ _ => some rd
  | .slli rd _ _ => some rd
  | .sltiu rd _ _ => some rd
  | .srli rd _ _ => some rd
  | .lw rd _ _ => some rd
  | .jalr rd _ _ => some rd
  | .sw _ _ _ => none
  | .beq _ _ _ => none
  | .bne _ _ _ => none
  | .lui rd _ => some rd
  | .auipc rd _ => some rd
  | .jal rd _ => some rd
  | .rst => none
  | .halt => none

/-- The data address an instruction stores to: only `sw` stores (20_memory.md R51). -/
def storeAddrOf (i : Instr) (s : State) : Option Word :=
  match i with
  | .sw _ rs1 imm => some (s.effAddr rs1 imm)
  | .add _ _ _ => none
  | .sub _ _ _ => none
  | .slt _ _ _ => none
  | .xor _ _ _ => none
  | .srl _ _ _ => none
  | .or _ _ _ => none
  | .and _ _ _ => none
  | .addi _ _ _ => none
  | .slli _ _ _ => none
  | .sltiu _ _ _ => none
  | .srli _ _ _ => none
  | .lw _ _ _ => none
  | .jalr _ _ _ => none
  | .beq _ _ _ => none
  | .bne _ _ _ => none
  | .lui _ _ => none
  | .auipc _ _ => none
  | .jal _ _ => none
  | .rst => none
  | .halt => none

end Sys2Proof.Machine
end

