-- ==== Sys2Proof/Machine/Flags.lean ====
section
/-!
DEFINITION. EXE has no flags (10_state.md R27): a comparison writes 1 or 0 to a general register or decides a branch.
These are the comparisons, and the two ways their outcome is used.
-/

namespace Sys2Proof.Machine

/-- `signed(a) < signed(b)`, a true signed comparison (42_r_type.md R196). -/
def signedLess (a b : Word) : Bool := decide (a.toInt < b.toInt)

/-- `unsigned(a) < unsigned(b)` (43_i_type.md R203). -/
def unsignedLess (a b : Word) : Bool := decide (a.toNat < b.toNat)

/-- All 32 bits equal (45_b_type.md R215). -/
def sameWord (a b : Word) : Bool := a == b

/-- The 32-bit vector 1 or 0 of a comparison. -/
def boolWord (c : Bool) : Word := if c then 1#32 else 0#32

/-- The next pc of a branch: the target when the condition holds, else `pc + 4` (45_b_type.md R215, R216). -/
def State.branchPc (s : State) (c : Bool) (off : BitVec 13) : Word := if c then s.branchTarget off else s.nextPc

end Sys2Proof.Machine
end

