-- ==== Sys2Proof/Machine/BFormat.lean ====
section
/-!
DEFINITION. The meanings of the B-format instructions (45_b_type.md). A misaligned or outside target raises nothing
at the branch (20_memory.md R55).
-/

namespace Sys2Proof.Machine

/-- 45_b_type.md R215. -/
def execBeq (rs1 rs2 : RegIdx) (off : BitVec 13) (s : State) : StepOutcome :=
  .next (s.complete (s.branchPc (sameWord (s.reg rs1) (s.reg rs2)) off))

/-- 45_b_type.md R216. -/
def execBne (rs1 rs2 : RegIdx) (off : BitVec 13) (s : State) : StepOutcome :=
  .next (s.complete (s.branchPc (!sameWord (s.reg rs1) (s.reg rs2)) off))

end Sys2Proof.Machine
end

