-- ==== Sys2Proof/Machine/IFormat.lean ====
section
/-!
DEFINITION. The meanings of the I-format instructions (43_i_type.md).
-/

namespace Sys2Proof.Machine

/-- 43_i_type.md R200: `x[rd] <- x[rs1] + sext_12(imm12)`, modulo 2^32. -/
def execAddi (rd rs1 : RegIdx) (imm : BitVec 12) (s : State) : StepOutcome :=
  .next (s.writeBack rd (s.reg rs1 + sext12 imm))

/-- 43_i_type.md R201 (decision D6): left shift, zeros entering at bit 0. -/
def execSlli (rd rs1 : RegIdx) (shamt : BitVec 5) (s : State) : StepOutcome :=
  .next (s.writeBack rd (s.reg rs1 <<< shamt.toNat))

/-- 43_i_type.md R202 (decision D6): logical right shift. -/
def execSrli (rd rs1 : RegIdx) (shamt : BitVec 5) (s : State) : StepOutcome :=
  .next (s.writeBack rd (s.reg rs1 >>> shamt.toNat))

/-- 43_i_type.md R203 (decisions D6, D7): 1 if less, both operands unsigned, else 0. -/
def execSltiu (rd rs1 : RegIdx) (imm : BitVec 12) (s : State) : StepOutcome :=
  .next (s.writeBack rd (boolWord (unsignedLess (s.reg rs1) (sltiuImm imm))))

/-- 43_i_type.md R204: the link value from the pc of the `jalr`, the target from the old `x[rs1]`. -/
def execJalr (rd rs1 : RegIdx) (imm : BitVec 12) (s : State) : StepOutcome :=
  .next ((s.setReg rd s.nextPc).complete (s.jalrTarget rs1 imm))

/-- 43_i_type.md R205: the word at `x[rs1] + sext_12(imm12)`; no alignment check. -/
def execLw (rd rs1 : RegIdx) (imm : BitVec 12) (s : State) : StepOutcome :=
  .next (s.writeBack rd (s.load (s.effAddr rs1 imm)))

end Sys2Proof.Machine
end

