-- ==== Sys2Proof/Machine/JFormat.lean ====
section
/-!
DEFINITION. The meaning of the J-format instruction (47_j_type.md).
-/

namespace Sys2Proof.Machine

/-- 47_j_type.md R225: link and target both from the pc of the `jal`. -/
def execJal (rd : RegIdx) (off : BitVec 21) (s : State) : StepOutcome :=
  .next ((s.setReg rd s.nextPc).complete (s.jalTarget off))

end Sys2Proof.Machine
end

