-- ==== Sys2Proof/Machine/RFormat.lean ====
section
/-!
DEFINITION. The meanings of the R-format instructions (42_r_type.md). Both operands are read from the state before
the step (41_executor_loop.md R161).
-/

namespace Sys2Proof.Machine

/-- 42_r_type.md R191: `x[rd] <- x[rs1] + x[rs2]`, modulo 2^32. -/
def execAdd (rd rs1 rs2 : RegIdx) (s : State) : StepOutcome :=
  .next (s.writeBack rd (s.reg rs1 + s.reg rs2))

/-- 42_r_type.md R192: `x[rd] <- x[rs1] - x[rs2]`, modulo 2^32. -/
def execSub (rd rs1 rs2 : RegIdx) (s : State) : StepOutcome :=
  .next (s.writeBack rd (s.reg rs1 - s.reg rs2))

/-- 42_r_type.md R193: bit by bit. -/
def execAnd (rd rs1 rs2 : RegIdx) (s : State) : StepOutcome :=
  .next (s.writeBack rd (s.reg rs1 &&& s.reg rs2))

/-- 42_r_type.md R194: bit by bit. -/
def execOr (rd rs1 rs2 : RegIdx) (s : State) : StepOutcome :=
  .next (s.writeBack rd (s.reg rs1 ||| s.reg rs2))

/-- 42_r_type.md R195: bit by bit. -/
def execXor (rd rs1 rs2 : RegIdx) (s : State) : StepOutcome :=
  .next (s.writeBack rd (s.reg rs1 ^^^ s.reg rs2))

/-- 42_r_type.md R196: 1 if less, both operands signed, else 0. -/
def execSlt (rd rs1 rs2 : RegIdx) (s : State) : StepOutcome :=
  .next (s.writeBack rd (boolWord (signedLess (s.reg rs1) (s.reg rs2))))

/-- 42_r_type.md R197: logical right shift by `x[rs2] & 0x1F`. -/
def execSrl (rd rs1 rs2 : RegIdx) (s : State) : StepOutcome :=
  .next (s.writeBack rd (s.reg rs1 >>> regShamt (s.reg rs2)))

end Sys2Proof.Machine
end

