-- ==== Sys2Proof/Machine/SFormat.lean ====
section
/-!
DEFINITION. The meaning of the S-format instruction (44_s_type.md).
-/

namespace Sys2Proof.Machine

/-- 44_s_type.md R210: `MemWrite(x[rs1] + sext_12(imm12), 4, x[rs2])`; no alignment check. -/
def execSw (rs2 rs1 : RegIdx) (imm : BitVec 12) (s : State) : StepOutcome :=
  .next ((s.store (s.effAddr rs1 imm) (s.reg rs2)).complete s.nextPc)

end Sys2Proof.Machine
end

