-- ==== Sys2Proof/Machine/Sentinels.lean ====
section
/-!
DEFINITION. The meanings of the sentinel words and of an unknown word (48_sentinels_unknown.md).
-/

namespace Sys2Proof.Machine

/-- 48_sentinels_unknown.md R230: the run ends with reason `Halt`; no register, no memory cell and no pc changes. -/
def execHalt (s : State) : StepOutcome := .next s.haltRun

/-- 48_sentinels_unknown.md R231 (decision D9): the unknown-word rule with `w = RST_WORD`; nothing is reset. -/
def execRst (s : State) : StepOutcome := .next (s.unknownWord Config.rstWord)

/-- 48_sentinels_unknown.md R232: one diagnostic, `pc + 4`, one snapshot, no register and no memory write. -/
def execUnknown (w : Word) (s : State) : StepOutcome := .next (s.unknownWord w)

end Sys2Proof.Machine
end

