-- ==== Sys2Proof/Machine/UFormat.lean ====
section
/-!
DEFINITION. The meanings of the U-format instructions (46_u_type.md; decision D4).
-/

namespace Sys2Proof.Machine

/-- 46_u_type.md R220: the upper 20 bits from the word, the low 12 zero. -/
def execLui (rd : RegIdx) (val : BitVec 32) (s : State) : StepOutcome :=
  .next (s.writeBack rd val)

/-- 46_u_type.md R221: the pc of the `auipc` plus the value, modulo 2^32. -/
def execAuipc (rd : RegIdx) (val : BitVec 32) (s : State) : StepOutcome :=
  .next (s.writeBack rd (s.pc + val))

end Sys2Proof.Machine
end

