-- ==== Sys2Proof/Machine/Loop.lean ====
section
/-!
DEFINITION. EXE's loop (41_executor_loop.md R162) and the contract of a whole run (R160).
-/

namespace Sys2Proof.Machine

/-- Decode and dispatch (41_executor_loop.md R165): an instruction runs its meaning, any other word the unknown-word rule. -/
def runWord (w : Word) (s : State) : StepOutcome :=
  match decode w with
  | .ok i => exec i s
  | .error _ => execUnknown w s

/-- One turn of the loop: the two tests on the pc, the fetch, the step. The end of a run by `OffEnd` is a next state with
the reason set and the dump emitted; `MisalignedPc` is a fault (log entry 5); while no run is in progress,
before a launch and after the end, EXE makes no step and the machine stays as it is (log entries 4 and 6). -/
def exeStep (s : State) : StepOutcome :=
  if s.exeRunning then
    match s.fetch with
    | .offEnd => .next (s.endRun .offEnd)
    | .misaligned => .fault (.misalignedPc (s.endRun .misalignedPc))
    | .word w => runWord w s
  else .next s

/-- What a run of EXE leaves: the trace and the dump of its contract, the diagnostics and the stop reason
(41_executor_loop.md R160; 70_reset_and_hazards.md R265). -/
structure RunResult where
  trace : List Snapshot
  diag : List DiagRecord
  stop : StopReason
  dump : List DumpEntry
deriving DecidableEq, Repr

/-- The outputs of a state in which the run has ended. -/
def resultOf (s : State) : Option RunResult :=
  match s.stop, s.dump with
  | some r, some d => some { trace := s.trace, diag := s.diag, stop := r, dump := d }
  | _, _ => none

/-- EXE from a state for at most `fuel` turns of the loop: its outputs if the run has ended by then. The fuel is the
model's, not the hardware's (41_executor_loop.md R170). -/
def runExe : Nat → State → Option RunResult
  | 0, s => resultOf s
  | fuel + 1, s =>
    match exeStep s with
    | .next t => runExe fuel t
    | .fault (.misalignedPc final) => resultOf final
    | .refused _ => none

end Sys2Proof.Machine
end

