-- ==== Sys2Proof/Machine/Step.lean ====
section
/-!
DEFINITION. One step of the machine. While an ENC run is in progress ENC moves, else EXE: the two share no state
(00_scope.md R5), so the order is unobservable (log entry 7).
-/

namespace Sys2Proof.Machine

/-- One step. -/
def step (s : State) : StepOutcome := if s.enc.running then .next (encStep s) else exeStep s

/-- The state in which the next step fetches and runs the table word `w`: the word stands at the pc (rounded down to a
multiple of 4, since no fetch is made elsewhere), an EXE run is in progress and no ENC run is (log entry 4). -/
def State.withFetchWord (s : State) (nbits w : Nat) : State :=
  { s with
    pc := alignPc s.pc
    imem := placeWord s.imem ((alignPc s.pc).toNat / 4) (tableWord nbits w)
    stop := none
    launched := true
    enc := { s.enc with phase := if s.enc.running then .idle else s.enc.phase } }

end Sys2Proof.Machine
end

