-- ==== Sys2Proof/Machine/Formats.lean ====
section
/-!
DEFINITION. The three persisted text formats, bit-exact (00_scope.md R3): the machine-code line (30_encoding.md R93), the
trace line (41_executor_loop.md R172) and the dump line (R171).
-/

namespace Sys2Proof.Machine

/-- `0` or `1`. -/
def bitChar (b : Bool) : Char := if b then '1' else '0'

/-- The 32 bits of a word, most significant first. -/
def bitsText (w : Word) : Text := (List.range 32).map fun k => bitChar (w.getLsbD (31 - k))

/-- The machine-code line of a word: character `k` is bit `31-k`, newline-terminated (30_encoding.md R93). -/
def machineCodeLine (w : Word) : Text := bitsText w ++ ['\n']

/-- The machine-code file: line `i` is `words[i]`. -/
def machineCodeFile (ws : List Word) : Text := (ws.map machineCodeLine).flatten

/-- The value of a character `0` or `1`. -/
def charBit (c : Char) : Option Bool := if c = '1' then some true else if c = '0' then some false else none

/-- The number a string of `0` and `1` writes, most significant first, after the prefix read so far. -/
def bitsValue : Text → Nat → Option Nat
  | [], acc => some acc
  | c :: cs, acc =>
    match charBit c with
    | some b => bitsValue cs (2 * acc + b.toNat)
    | none => none

/-- The word of a machine-code line: exactly 32 characters `0` or `1` and a newline, nothing else. -/
def readMachineCodeLine (t : Text) : Option Word :=
  if t.length = 33 ∧ t.drop 32 = ['\n'] then (bitsValue (t.take 32) 0).map (BitVec.ofNat 32) else none

/-- A token `0b` and 32 bits. -/
def bitsToken (w : Word) : Text := '0' :: 'b' :: bitsText w

/-- Tokens with one space between them (decision D30). -/
def joinSpaces : List Text → Text
  | [] => []
  | [t] => t
  | t :: u :: ts => t ++ (' ' :: joinSpaces (u :: ts))

/-- The 33 tokens of a snapshot: the pc, then the registers in index order. -/
def snapshotTokens (n : Snapshot) : List Text := bitsToken n.pc :: n.regs.toList.map bitsToken

/-- The trace line of a snapshot (41_executor_loop.md R172). -/
def traceLine (n : Snapshot) : Text := joinSpaces (snapshotTokens n) ++ ['\n']

/-- A lower-case hexadecimal digit. -/
def hexChar (d : Nat) : Char := if d < 10 then Char.ofNat (48 + d) else Char.ofNat (87 + d)

/-- Eight hexadecimal digits, lower case, zero-padded (decision D30). -/
def hexText (w : Word) : Text := (List.range 8).map fun k => hexChar (w.toNat / 16 ^ (7 - k) % 16)

/-- The dump line `0xADDRESS:0bVALUE` (41_executor_loop.md R171). -/
def dumpLine (e : DumpEntry) : Text := '0' :: 'x' :: hexText e.addr ++ (':' :: bitsToken e.value) ++ ['\n']

/-- The text EXE writes: the trace lines, then the dump lines. -/
def outputText (s : State) : Text :=
  (s.trace.map traceLine).flatten ++ ((s.dump.getD []).map dumpLine).flatten

end Sys2Proof.Machine
end

