-- ==== Sys2Proof/Safety.lean ====
section
/-!
DEFINITION. What counts as a sound state and a safe run, and the relations between a state and its successor that claims
are stated in.
-/

namespace Sys2Proof.Machine

/-! ### Sound states -/

/-- `registers[0]` is 0 (10_state.md R22). -/
def RegZero (s : State) : Prop := s.regs[0] = 0#32

/-- Data memory is in its canonical form. -/
def MemCanonical (s : State) : Prop := s.mem.wf = true

/-- Bit 0 of the pc is 0 (10_state.md R26). -/
def PcEven (s : State) : Prop := s.pc.toNat % 2 = 0

/-- The program is one a 32-bit pc can address (70_reset_and_hazards.md R262). -/
def ProgramFits (s : State) : Prop := s.imem.length ≤ maxWords

/-- The dump has been emitted exactly when the run has ended (41_executor_loop.md R171). -/
def DumpIffEnded (s : State) : Prop := s.dump.isSome = s.stop.isSome

/-- Every snapshot shows `x[0]` as 0 (41_executor_loop.md R168). -/
def TraceZero (s : State) : Prop := ∀ n ∈ s.trace, n.regs[0] = 0#32

/-- The symbol table is a finite partial map from well-formed names to addresses that are multiples of 4 and at most the
address counter (10_state.md R32; 40_encoder.md R112, R115). -/
def SymtabOk (b : EncBook) : Prop :=
  (b.symtab.map Prod.fst).Nodup ∧ ∀ e ∈ b.symtab, isLabelName e.1 = true ∧ e.2 % 4 = 0 ∧ e.2 ≤ b.addr

/-- Recorded line number `k`, counting the words already produced, has address `4*k` and a nonblank text; the address
counter stands past the last (40_encoder.md R113, R115). -/
def RecordedOk (b : EncBook) (produced : Nat) : Prop :=
  b.addr = 4 * (produced + b.recorded.length) ∧
    ∀ k (h : k < b.recorded.length), b.recorded[k].addr = 4 * (produced + k) ∧ b.recorded[k].text ≠ []

/-- ENC's bookkeeping is sound, no word is produced before pass 2, words are released only when done, and an error is
reported exactly when failed (40_encoder.md R133, R134). -/
def EncoderOk (e : Encoder) : Prop :=
  SymtabOk e.book ∧ RecordedOk e.book e.acc.length ∧ (e.phase = .pass1 → e.acc = []) ∧
    (e.words ≠ [] → e.phase = .done) ∧ (e.err.isSome = true ↔ e.phase = .failed)

/-- The two agents are never in the middle of a run together: there is no concurrency (00_scope.md R5). -/
def OneAgent (s : State) : Prop := s.enc.running = true → s.exeRunning = false

/-- A sound state of the whole machine. -/
structure Sound (s : State) : Prop where
  regZero : RegZero s
  memCanonical : MemCanonical s
  pcEven : PcEven s
  programFits : ProgramFits s
  dumpIffEnded : DumpIffEnded s
  traceZero : TraceZero s
  encoderOk : EncoderOk s.enc
  oneAgent : OneAgent s

/-! ### A state and its successor -/

/-- Register `rd` holds `v` and every other register what it held; `x[0]` reads 0 whatever `rd` is. -/
def RegWritten (s t : State) (rd : RegIdx) (v : Word) : Prop :=
  ∀ r, t.reg r = if r = 0 then 0#32 else if r = rd then v else s.reg r

/-- Every register reads as before. -/
def RegsKept (s t : State) : Prop := ∀ r, t.reg r = s.reg r

/-- Every data cell reads as before. -/
def MemKept (s t : State) : Prop := ∀ a, t.load a = s.load a

/-- The cell at `addr` reads `v` and every other cell as before. -/
def CellWritten (s t : State) (addr v : Word) : Prop := ∀ a, t.load a = if a = addr then v else s.load a

/-- The program, the stop reason, the dump and ENC are as before, and a launched run stays launched. -/
def SurroundKept (s t : State) : Prop :=
  t.imem = s.imem ∧ t.stop = s.stop ∧ t.dump = s.dump ∧ t.launched = s.launched ∧ t.enc = s.enc

/-- No diagnostic was added. -/
def DiagKept (s t : State) : Prop := t.diag = s.diag

/-- Exactly one snapshot was appended, and it shows the pc and registers of `t` (41_executor_loop.md R168). -/
def OneSnapshot (s t : State) : Prop :=
  ∃ n, t.trace = s.trace ++ [n] ∧ n.pc = t.pc ∧ ∀ r : RegIdx, n.regs[r.val] = t.reg r

/-- The whole effect of an instruction that writes `rd` and stores nothing: `rd` holds `v`, the pc is `npc`, one snapshot is
appended, and nothing else changes. -/
structure WritesRegister (s t : State) (rd : RegIdx) (v npc : Word) : Prop where
  regs : RegWritten s t rd v
  pc : t.pc = npc
  mem : MemKept s t
  diag : DiagKept s t
  surround : SurroundKept s t
  snapshot : OneSnapshot s t

/-- The whole effect of an instruction that writes no register and stores nothing: the pc is `npc`, one snapshot is
appended, and nothing else changes. -/
structure OnlyMovesPc (s t : State) (npc : Word) : Prop where
  regs : RegsKept s t
  pc : t.pc = npc
  mem : MemKept s t
  diag : DiagKept s t
  surround : SurroundKept s t
  snapshot : OneSnapshot s t

/-- The whole effect of a word EXE knows no instruction for: one diagnostic for it, the pc is `npc`, one snapshot is
appended, and nothing else changes (48_sentinels_unknown.md R232). -/
structure OnlyDiagnoses (s t : State) (w npc : Word) : Prop where
  regs : RegsKept s t
  pc : t.pc = npc
  mem : MemKept s t
  diag : t.diag = s.diag ++ [{ pc := s.pc, word := w }]
  surround : SurroundKept s t
  snapshot : OneSnapshot s t

/-- The whole effect of the end of a run: the reason is set, the dump is the `DUMP_WORDS` cells from `DUMP_BASE`, and the
architectural state, the program, the diagnostics and ENC are kept (41_executor_loop.md R169, R171). -/
structure EndsRun (s t : State) (reason : StopReason) : Prop where
  regs : RegsKept s t
  pc : t.pc = s.pc
  mem : MemKept s t
  diag : DiagKept s t
  imem : t.imem = s.imem
  launched : t.launched = s.launched
  enc : t.enc = s.enc
  stop : t.stop = some reason
  dump : ∃ d, t.dump = some d ∧ d.length = Config.dumpWords ∧
    ∀ k (h : k < d.length), d[k].addr = Config.dumpBase + BitVec.ofNat 32 (4 * k) ∧ d[k].value = s.load d[k].addr

/-- The architectural state (10_state.md R20), as it reads. -/
def ArchKept (s t : State) : Prop := RegsKept s t ∧ MemKept s t ∧ t.pc = s.pc

/-- Two states that differ in EXE's outputs only: trace, diagnostics, dump (10_state.md R34). -/
def SameButOutputs (s t : State) : Prop :=
  s.regs = t.regs ∧ s.pc = t.pc ∧ s.mem = t.mem ∧ s.imem = t.imem ∧ s.stop = t.stop ∧ s.launched = t.launched ∧
    s.enc = t.enc

/-- EXE as a whole is untouched. -/
def ExeKept (s t : State) : Prop :=
  t.regs = s.regs ∧ t.pc = s.pc ∧ t.mem = s.mem ∧ t.imem = s.imem ∧ t.trace = s.trace ∧ t.diag = s.diag ∧
    t.dump = s.dump ∧ t.stop = s.stop ∧ t.launched = s.launched

/-! ### Runs -/

/-- `Steps s t`: some number of steps leads from `s` to `t`. -/
inductive Steps : State → State → Prop where
  | refl (s : State) : Steps s s
  | tail {s t u : State} : Steps s t → step t = .next u → Steps s u

/-- A state that steps and host moves reach from reset. The host moves only between runs: `State.startEncoder` and
`State.launch` change nothing during one (00_scope.md R5). A run that ended by `MisalignedPc` leaves the state its fault
carries. -/
inductive Reachable : State → Prop where
  | reset (seed : Word) : Reachable (State.resetWith seed)
  | source {s : State} (src : List Text) : Reachable s → Reachable (s.startEncoder src)
  | launch {s : State} (init : InitState) (words : List Word) : Reachable s → init.ok = true →
      init.pc.toNat % 2 = 0 → words.length ≤ maxWords → Reachable (s.launch init words)
  | step {s t : State} : Reachable s → step s = .next t → Reachable t
  | misaligned {s t : State} : Reachable s → step s = .fault (.misalignedPc t) → Reachable t

/-- The run from `s` ends normally, by `Halt` or `OffEnd` (41_executor_loop.md R169). -/
def EndsNormally (s : State) : Prop := ∃ t, Steps s t ∧ (t.stop = some .halt ∨ t.stop = some .offEnd)

end Sys2Proof.Machine
end

