-- ==== Sys2Proof/Certificates/Slice0/Obligations.lean ====
section
/-!
DEFINITION. The statements for the provers, from the numbered rules of spec/. A docstring that names a decision D<n> (of
92_eei_decisions.md) or a log entry says that its clause is a choice and not the source's.
-/

open Sys2Proof Sys2Proof.Machine

/-! ### The codec -/

/-- 30_encoding.md R72 to R74: the R, I and S packers place every field at its bits, the unpackers read the same bits back,
and packing the fields of a word gives the word. -/
def Obligations.PackersOfRISPlaceFields : Prop :=
  (∀ (f7 : BitVec 7) (rs2 rs1 rd : RegIdx) (f3 : BitVec 3) (op : BitVec 7),
    let w := packR f7 rs2 rs1 f3 rd op
    w.extractLsb' 25 7 = f7 ∧ w.extractLsb' 20 5 = BitVec.ofFin rs2 ∧ w.extractLsb' 15 5 = BitVec.ofFin rs1 ∧
      w.extractLsb' 12 3 = f3 ∧ w.extractLsb' 7 5 = BitVec.ofFin rd ∧ w.extractLsb' 0 7 = op) ∧
  (∀ w : Word, packR (funct7Of w) (rs2Of w) (rs1Of w) (funct3Of w) (rdOf w) (opcodeOf w) = w) ∧
  (∀ (imm : BitVec 12) (rs1 rd : RegIdx) (f3 : BitVec 3) (op : BitVec 7),
    let w := packI imm rs1 f3 rd op
    w.extractLsb' 20 12 = imm ∧ w.extractLsb' 15 5 = BitVec.ofFin rs1 ∧ w.extractLsb' 12 3 = f3 ∧
      w.extractLsb' 7 5 = BitVec.ofFin rd ∧ w.extractLsb' 0 7 = op) ∧
  (∀ w : Word, packI (immIOf w) (rs1Of w) (funct3Of w) (rdOf w) (opcodeOf w) = w) ∧
  (∀ (imm : BitVec 12) (rs2 rs1 : RegIdx) (f3 : BitVec 3) (op : BitVec 7),
    let w := packS imm rs2 rs1 f3 op
    w.extractLsb' 25 7 = imm.extractLsb' 5 7 ∧ w.extractLsb' 20 5 = BitVec.ofFin rs2 ∧
      w.extractLsb' 15 5 = BitVec.ofFin rs1 ∧ w.extractLsb' 12 3 = f3 ∧ w.extractLsb' 7 5 = imm.extractLsb' 0 5 ∧
      w.extractLsb' 0 7 = op ∧ immSOf w = imm) ∧
  (∀ w : Word, packS (immSOf w) (rs2Of w) (rs1Of w) (funct3Of w) (opcodeOf w) = w) ∧
  (∀ w : Word, -2048 ≤ (immIOf w).toInt ∧ (immIOf w).toInt ≤ 2047 ∧ -2048 ≤ (immSOf w).toInt ∧ (immSOf w).toInt ≤ 2047)

/-- 30_encoding.md R75 to R77: the B, U and J packers place every stored bit, ignore the bits that are not stored, and the
unpackers return those as 0; packing the fields of a word gives the word. -/
def Obligations.PackersOfBUJPlaceFields : Prop :=
  (∀ (imm : BitVec 13) (rs2 rs1 : RegIdx) (f3 : BitVec 3) (op : BitVec 7),
    let w := packB imm rs2 rs1 f3 op
    w.getLsbD 31 = imm.getLsbD 12 ∧ w.extractLsb' 25 6 = imm.extractLsb' 5 6 ∧ w.extractLsb' 20 5 = BitVec.ofFin rs2 ∧
      w.extractLsb' 15 5 = BitVec.ofFin rs1 ∧ w.extractLsb' 12 3 = f3 ∧ w.extractLsb' 8 4 = imm.extractLsb' 1 4 ∧
      w.getLsbD 7 = imm.getLsbD 11 ∧ w.extractLsb' 0 7 = op ∧
      (immBOf w).getLsbD 0 = false ∧ ∀ k, 1 ≤ k → (immBOf w).getLsbD k = imm.getLsbD k) ∧
  (∀ w : Word, packB (immBOf w) (rs2Of w) (rs1Of w) (funct3Of w) (opcodeOf w) = w) ∧
  (∀ imm : BitVec 13, -4096 ≤ imm.toInt ∧ imm.toInt ≤ 4095) ∧
  (∀ (v : BitVec 32) (rd : RegIdx) (op : BitVec 7),
    let w := packU v rd op
    w.extractLsb' 12 20 = v.extractLsb' 12 20 ∧ w.extractLsb' 7 5 = BitVec.ofFin rd ∧ w.extractLsb' 0 7 = op ∧
      (immUOf w).toNat = v.toNat / 4096 * 4096) ∧
  (∀ w : Word, packU (immUOf w) (rdOf w) (opcodeOf w) = w) ∧
  (∀ (imm : BitVec 21) (rd : RegIdx) (op : BitVec 7),
    let w := packJ imm rd op
    w.getLsbD 31 = imm.getLsbD 20 ∧ w.extractLsb' 21 10 = imm.extractLsb' 1 10 ∧ w.getLsbD 20 = imm.getLsbD 11 ∧
      w.extractLsb' 12 8 = imm.extractLsb' 12 8 ∧ w.extractLsb' 7 5 = BitVec.ofFin rd ∧ w.extractLsb' 0 7 = op ∧
      (immJOf w).getLsbD 0 = false ∧ ∀ k, 1 ≤ k → (immJOf w).getLsbD k = imm.getLsbD k) ∧
  (∀ w : Word, packJ (immJOf w) (rdOf w) (opcodeOf w) = w) ∧
  (∀ imm : BitVec 21, -1048576 ≤ imm.toInt ∧ imm.toInt ≤ 1048575)

/-- 30_encoding.md R92, the round-trip law: decoding the word of a well-formed instruction gives the instruction. R92's exact
form speaks of the rows with a format (their values are decision D2). The two whole words are the model's addition: `halt`
rests on decision D1; that word 0 decodes to `rst` is log entry 8, where R87 has it match no row that EXE executes (D9). -/
def Obligations.DecodeOfEncodeIsIdentity : Prop :=
  ∀ i : Instr, i.wellFormed = true → decode (encode i) = .ok i

/-- What the word does not store is dropped and nothing else is (R92's last sentence, which the spec marks as derived, and
decisions D5, D29): decoding the word of any instruction, well formed or not, gives it with the unstored bits 0. The case
`rst` is none of these: that word 0 decodes to it is log entry 8 (D9); the case `halt` rests on decision D1. -/
def Obligations.DecodeOfEncodeDropsUnstoredBits : Prop :=
  ∀ i : Instr, decode (encode i) = .ok (truncateUnstored i) ∧
    (truncateUnstored i).wellFormed = true ∧ encode (truncateUnstored i) = encode i

/-- Every word that decodes is the word of its instruction, which is well formed: a word has one meaning (the opcode values are
decision D2, the halt word D1; that word 0 decodes to `rst` is log entry 8, where EXE calls it unknown, D9). -/
def Obligations.EncodeOfDecodeIsIdentity : Prop :=
  ∀ (w : Word) (i : Instr), decode w = .ok i → encode i = w ∧ i.wellFormed = true

/-- The decoder and the opcode table of 30_encoding.md R86 (its values are decision D2, the halt row's D1) agree on every word.
For the row of `rst` this says that word 0 decodes to `rst`, which is log entry 8: R87 has it match no row that EXE executes
(D9). -/
def Obligations.DecodeAgreesWithOpcodeTable : Prop :=
  (∀ (w : Word) (i : Instr), decode w = .ok i → ∃ row ∈ opcodeTable, row.mnem = i.mnem ∧ w &&& row.mask = row.bits) ∧
  (∀ (w : Word), ∀ row ∈ opcodeTable, w &&& row.mask = row.bits → ∃ i, decode w = .ok i ∧ i.mnem = row.mnem)

/-- "No two rows match the same word" (30_encoding.md R86; the values are decision D2). -/
def Obligations.OpcodeRowsAreDisjoint : Prop :=
  ∀ (w : Word), ∀ row ∈ opcodeTable, ∀ row' ∈ opcodeTable,
    w &&& row.mask = row.bits → w &&& row'.mask = row'.bits → row = row'

/-- Words written out from the encodings, of each format and `halt` (95_test_vectors.md part B; the opcode values are
decision D2, the halt word D1). The clause for word 0 is the model's: R87 and R231 call that word unknown in EXE, and that it
decodes to `rst`, whose meaning is the unknown-word rule, is log entry 8 (D9). -/
def Obligations.SampleWordsDecode : Prop :=
  decode 0x002081B3#32 = .ok (.add 3 1 2) ∧ decode 0x40700F33#32 = .ok (.sub 30 0 7) ∧
  decode 0x00500093#32 = .ok (.addi 1 0 5#12) ∧ decode 0x00431393#32 = .ok (.slli 7 6 4#5) ∧
  decode 0xFFC100E7#32 = .ok (.jalr 1 2 0xFFC#12) ∧ decode 0xFE312E23#32 = .ok (.sw 3 2 0xFFC#12) ∧
  decode 0xFE628CE3#32 = .ok (.beq 5 6 0x1FF8#13) ∧ decode 0x12345437#32 = .ok (.lui 8 0x12345000#32) ∧
  decode 0x00C000EF#32 = .ok (.jal 1 12#21) ∧ decode 0x00000000#32 = .ok .rst ∧ decode 0xFFFFFFFF#32 = .ok .halt

/-- 30_encoding.md R79 to R85: the immediate each instruction uses, as bits of its word, extended to 32 bits, and its
range; a branch or `jal` offset is a byte offset from the instruction itself. A shift amount is `w[24:20]` under an upper
field of zeros (decision D32); the field of `sltiu` is sign-extended (decision D7, log entry 3). -/
def Obligations.ExecutorImmediatesAreSlices : Prop :=
  (∀ (w : Word) (rd rs1 : RegIdx) (imm : BitVec 12),
    (decode w = .ok (.addi rd rs1 imm) ∨ decode w = .ok (.jalr rd rs1 imm) ∨ decode w = .ok (.lw rd rs1 imm)) →
      sext12 imm = (w.extractLsb' 20 12).signExtend 32 ∧ -2048 ≤ (sext12 imm).toInt ∧ (sext12 imm).toInt ≤ 2047) ∧
  (∀ (w : Word) (rs2 rs1 : RegIdx) (imm : BitVec 12), decode w = .ok (.sw rs2 rs1 imm) →
      sext12 imm = (w.extractLsb' 25 7 ++ w.extractLsb' 7 5).signExtend 32 ∧ -2048 ≤ (sext12 imm).toInt ∧
        (sext12 imm).toInt ≤ 2047) ∧
  (∀ (w : Word) (rs1 rs2 : RegIdx) (off : BitVec 13),
    (decode w = .ok (.beq rs1 rs2 off) ∨ decode w = .ok (.bne rs1 rs2 off)) →
      sext13 off = (w.extractLsb' 31 1 ++ w.extractLsb' 7 1 ++ w.extractLsb' 25 6 ++ w.extractLsb' 8 4 ++ 0#1).signExtend 32 ∧
        -4096 ≤ (sext13 off).toInt ∧ (sext13 off).toInt ≤ 4094 ∧ (sext13 off).toInt % 2 = 0 ∧
        ∀ s : State, s.branchTarget off = s.pc + sext13 off) ∧
  (∀ (w : Word) (rd : RegIdx) (val : BitVec 32),
    (decode w = .ok (.lui rd val) ∨ decode w = .ok (.auipc rd val)) →
      val = w.extractLsb' 12 20 ++ 0#12 ∧ val.extractLsb' 0 12 = 0#12) ∧
  (∀ (w : Word) (rd : RegIdx) (off : BitVec 21), decode w = .ok (.jal rd off) →
      sext21 off = (w.extractLsb' 31 1 ++ w.extractLsb' 12 8 ++ w.extractLsb' 20 1 ++ w.extractLsb' 21 10 ++ 0#1).signExtend 32 ∧
        -1048576 ≤ (sext21 off).toInt ∧ (sext21 off).toInt ≤ 1048574 ∧ (sext21 off).toInt % 2 = 0 ∧
        ∀ s : State, s.jalTarget off = s.pc + sext21 off) ∧
  (∀ (w : Word) (rd rs1 : RegIdx) (shamt : BitVec 5),
    (decode w = .ok (.slli rd rs1 shamt) ∨ decode w = .ok (.srli rd rs1 shamt)) →
      shamt = w.extractLsb' 20 5 ∧ w.extractLsb' 25 7 = 0#7 ∧ shamt.toNat ≤ 31) ∧
  (∀ (w : Word) (rd rs1 : RegIdx) (imm : BitVec 12), decode w = .ok (.sltiu rd rs1 imm) →
      imm = w.extractLsb' 20 12 ∧ sltiuImm imm = (w.extractLsb' 20 12).signExtend 32)

/-- 30_encoding.md R88's complete list of unknown words, (a) to (g) (its treatment of funct values is decision D8): a word
is in the list exactly when the decoder rejects it or it is the word of `rst`, which runs as an unknown word (D9, log
entry 8). -/
def Obligations.UnknownWordsAreTheList : Prop :=
  ∀ w : Word,
    let op := w.extractLsb' 0 7
    let f3 := w.extractLsb' 12 3
    let f7 := w.extractLsb' 25 7
    ((∃ e, decode w = .error e) ∨ decode w = .ok .rst) ↔
      w ≠ 0xFFFFFFFF#32 ∧
      ((op ∉ [0b0110011#7, 0b0010011#7, 0b0000011#7, 0b1100111#7, 0b0100011#7, 0b1100011#7, 0b0110111#7, 0b0010111#7,
          0b1101111#7]) ∨
        (op = 0b0110011#7 ∧ (f3, f7) ∉ [(0b000#3, 0b0000000#7), (0b000#3, 0b0100000#7), (0b010#3, 0b0000000#7),
          (0b100#3, 0b0000000#7), (0b101#3, 0b0000000#7), (0b110#3, 0b0000000#7), (0b111#3, 0b0000000#7)]) ∨
        (op = 0b0010011#7 ∧ (f3 ∈ [0b010#3, 0b100#3, 0b110#3, 0b111#3] ∨
          (f3 ∈ [0b001#3, 0b101#3] ∧ f7 ≠ 0b0000000#7))) ∨
        (op = 0b0000011#7 ∧ f3 ≠ 0b010#3) ∨ (op = 0b0100011#7 ∧ f3 ≠ 0b010#3) ∨
        (op = 0b1100011#7 ∧ f3 ∉ [0b000#3, 0b001#3]) ∨ (op = 0b1100111#7 ∧ f3 ≠ 0b000#3))

/-! ### What each instruction does: it completes, with this result and nothing else changed -/

/-- `add` and `sub` (42_r_type.md R190 to R192; that sums wrap is decision D15, that operands are the old values D20). -/
def Obligations.AddSubWrap : Prop :=
  ∀ (s : State) (rd rs1 rs2 : RegIdx),
    (∃ t, exec (.add rd rs1 rs2) s = .next t ∧
      WritesRegister s t rd (BitVec.ofNat 32 ((s.reg rs1).toNat + (s.reg rs2).toNat)) (BitVec.ofNat 32 (s.pc.toNat + 4))) ∧
    (∃ t, exec (.sub rd rs1 rs2) s = .next t ∧
      WritesRegister s t rd (BitVec.ofInt 32 ((s.reg rs1).toNat - (s.reg rs2).toNat)) (BitVec.ofNat 32 (s.pc.toNat + 4)))

/-- `and`, `or`, `xor` act bit by bit (42_r_type.md R193 to R195). -/
def Obligations.BitwiseInstructionsActPerBit : Prop :=
  ∀ (s : State) (rd rs1 rs2 : RegIdx),
    (∃ t v, exec (.and rd rs1 rs2) s = .next t ∧ WritesRegister s t rd v (BitVec.ofNat 32 (s.pc.toNat + 4)) ∧
      ∀ k, v.getLsbD k = ((s.reg rs1).getLsbD k && (s.reg rs2).getLsbD k)) ∧
    (∃ t v, exec (.or rd rs1 rs2) s = .next t ∧ WritesRegister s t rd v (BitVec.ofNat 32 (s.pc.toNat + 4)) ∧
      ∀ k, v.getLsbD k = ((s.reg rs1).getLsbD k || (s.reg rs2).getLsbD k)) ∧
    (∃ t v, exec (.xor rd rs1 rs2) s = .next t ∧ WritesRegister s t rd v (BitVec.ofNat 32 (s.pc.toNat + 4)) ∧
      ∀ k, v.getLsbD k = ((s.reg rs1).getLsbD k ^^ (s.reg rs2).getLsbD k))

/-- `slt` compares signed (42_r_type.md R196); `srl` shifts right by the low 5 bits, zeros entering (R197). -/
def Obligations.SltAndSrlResults : Prop :=
  ∀ (s : State) (rd rs1 rs2 : RegIdx),
    (∃ t, exec (.slt rd rs1 rs2) s = .next t ∧
      WritesRegister s t rd (if (s.reg rs1).toInt < (s.reg rs2).toInt then 1#32 else 0#32)
        (BitVec.ofNat 32 (s.pc.toNat + 4))) ∧
    (∃ t, exec (.srl rd rs1 rs2) s = .next t ∧
      WritesRegister s t rd (BitVec.ofNat 32 ((s.reg rs1).toNat / 2 ^ ((s.reg rs2).toNat % 32)))
        (BitVec.ofNat 32 (s.pc.toNat + 4)))

/-- `addi` adds the signed immediate modulo 2^32 (43_i_type.md R200; the wrap is decision D15). -/
def Obligations.AddiAddsSignedImmediate : Prop :=
  ∀ (s : State) (rd rs1 : RegIdx) (imm : BitVec 12), ∃ t, exec (.addi rd rs1 imm) s = .next t ∧
    WritesRegister s t rd (BitVec.ofInt 32 ((s.reg rs1).toNat + imm.toInt)) (BitVec.ofNat 32 (s.pc.toNat + 4))

/-- `slli` and `srli` shift by the amount in the word, zeros entering (43_i_type.md R201, R202; decision D6). -/
def Obligations.ShiftImmediateResults : Prop :=
  ∀ (s : State) (rd rs1 : RegIdx) (shamt : BitVec 5),
    (∃ t, exec (.slli rd rs1 shamt) s = .next t ∧
      WritesRegister s t rd (BitVec.ofNat 32 ((s.reg rs1).toNat * 2 ^ shamt.toNat)) (BitVec.ofNat 32 (s.pc.toNat + 4))) ∧
    (∃ t, exec (.srli rd rs1 shamt) s = .next t ∧
      WritesRegister s t rd (BitVec.ofNat 32 ((s.reg rs1).toNat / 2 ^ shamt.toNat)) (BitVec.ofNat 32 (s.pc.toNat + 4)))

/-- `sltiu` under `SLTIU_IMM_EXT = sext`: the field is sign-extended and the comparison is unsigned (43_i_type.md R203;
decisions D6, D7, log entry 3). -/
def Obligations.SltiuComparesUnsigned : Prop :=
  ∀ (s : State) (rd rs1 : RegIdx) (imm : BitVec 12), ∃ t, exec (.sltiu rd rs1 imm) s = .next t ∧
    WritesRegister s t rd (if (s.reg rs1).toNat < (imm.signExtend 32).toNat then 1#32 else 0#32)
      (BitVec.ofNat 32 (s.pc.toNat + 4))

/-- `jalr`: the target is the old `x[rs1]` plus the signed immediate, modulo 2^32 with bit 0 cleared; `rd` receives the
pc of the `jalr` plus 4 (43_i_type.md R204; decisions D15, D20). -/
def Obligations.JalrLinksAndJumps : Prop :=
  ∀ (s : State) (rd rs1 : RegIdx) (imm : BitVec 12), ∃ t npc, exec (.jalr rd rs1 imm) s = .next t ∧
    WritesRegister s t rd (BitVec.ofNat 32 (s.pc.toNat + 4)) npc ∧
    npc.toNat = (((s.reg rs1).toNat + (imm.signExtend 32).toNat) % 2 ^ 32) / 2 * 2

/-- `lw` loads the word of exactly the address `x[rs1] + imm`, aligned or not (43_i_type.md R205; cells by exact address
are decision D13, the wrap D15). -/
def Obligations.LwLoadsExactCell : Prop :=
  ∀ (s : State) (rd rs1 : RegIdx) (imm : BitVec 12), ∃ t, exec (.lw rd rs1 imm) s = .next t ∧
    WritesRegister s t rd (s.load (BitVec.ofInt 32 ((s.reg rs1).toNat + imm.toInt))) (BitVec.ofNat 32 (s.pc.toNat + 4))

/-- `sw` completes in every state; it stores all 32 bits of `x[rs2]` at exactly the address `x[rs1] + imm` and changes no
other cell and no register (44_s_type.md R210; decisions D13, D15). The stored cell reads back in a state whose memory is
canonical, which `StepKeepsMemoryCanonical` shows every step keeps. -/
def Obligations.SwStoresExactCell : Prop :=
  ∀ (s : State) (rs2 rs1 : RegIdx) (imm : BitVec 12), ∃ t, exec (.sw rs2 rs1 imm) s = .next t ∧
    (∀ a, a ≠ BitVec.ofInt 32 ((s.reg rs1).toNat + imm.toInt) → t.load a = s.load a) ∧
    (MemCanonical s → t.load (BitVec.ofInt 32 ((s.reg rs1).toNat + imm.toInt)) = s.reg rs2) ∧
    RegsKept s t ∧ t.pc = BitVec.ofNat 32 (s.pc.toNat + 4) ∧ DiagKept s t ∧ SurroundKept s t ∧ OneSnapshot s t

/-- `beq` and `bne` (45_b_type.md R215, R216; the wrap is decision D15): to the pc plus the signed offset when the condition
holds, else to the pc plus 4; no register is written. -/
def Obligations.BranchesTakeTheirTarget : Prop :=
  ∀ (s : State) (rs1 rs2 : RegIdx) (off : BitVec 13),
    (∃ t, exec (.beq rs1 rs2 off) s = .next t ∧
      OnlyMovesPc s t (if s.reg rs1 = s.reg rs2 then BitVec.ofInt 32 (s.pc.toNat + off.toInt)
        else BitVec.ofNat 32 (s.pc.toNat + 4))) ∧
    (∃ t, exec (.bne rs1 rs2 off) s = .next t ∧
      OnlyMovesPc s t (if s.reg rs1 = s.reg rs2 then BitVec.ofNat 32 (s.pc.toNat + 4)
        else BitVec.ofInt 32 (s.pc.toNat + off.toInt)))

/-- `lui` writes its value, `auipc` the pc of the `auipc` plus its value modulo 2^32 (46_u_type.md R220, R221; decisions
D4, D15). -/
def Obligations.UpperImmediateResults : Prop :=
  ∀ (s : State) (rd : RegIdx) (val : BitVec 32),
    (∃ t, exec (.lui rd val) s = .next t ∧ WritesRegister s t rd val (BitVec.ofNat 32 (s.pc.toNat + 4))) ∧
    (∃ t, exec (.auipc rd val) s = .next t ∧
      WritesRegister s t rd (BitVec.ofNat 32 (s.pc.toNat + val.toNat)) (BitVec.ofNat 32 (s.pc.toNat + 4)))

/-- `jal`: `rd` receives the pc plus 4, the pc becomes the pc plus the signed offset, both from the pc of the `jal`
(47_j_type.md R225; decisions D15, D20). -/
def Obligations.JalLinksAndJumps : Prop :=
  ∀ (s : State) (rd : RegIdx) (off : BitVec 21), ∃ t, exec (.jal rd off) s = .next t ∧
    WritesRegister s t rd (BitVec.ofNat 32 (s.pc.toNat + 4)) (BitVec.ofInt 32 (s.pc.toNat + off.toInt))

/-- `halt` completes: the run ends with reason `Halt`, the dump is emitted, no register, no cell and not the pc changes
(48_sentinels_unknown.md R230); with `HALT_SNAPSHOT = false` (decision D19, log entry 3) no snapshot is appended. -/
def Obligations.HaltEndsTheRun : Prop :=
  ∀ s : State, ∃ t, exec .halt s = .next t ∧ EndsRun s t .halt ∧ t.trace = s.trace

/-- `rst` runs as an unknown word: one diagnostic with the word 0, the pc plus 4, one snapshot, and nothing is reset
(48_sentinels_unknown.md R231; decision D9). -/
def Obligations.RstIsADiagnosedNoOp : Prop :=
  ∀ s : State, ∃ t, exec .rst s = .next t ∧ OnlyDiagnoses s t 0#32 (BitVec.ofNat 32 (s.pc.toNat + 4))

/-! ### The loop -/

/-- A step runs the decoded instruction: where no ENC run is in progress, an EXE run is and the pc is a multiple of 4 inside the program, `step` is `exec` of the instruction the fetched word decodes to; nothing is added around it, the
snapshot being part of `exec` (41_executor_loop.md R162, R163, R165). -/
def Obligations.StepRunsTheDecodedInstruction : Prop :=
  ∀ (s : State) (w : Word) (i : Instr), s.enc.running = false → s.exeRunning = true → s.pc.toNat % 4 = 0 →
    s.imem[s.pc.toNat / 4]? = some w → decode w = .ok i → step s = exec i s

/-- A step on an unknown word is a diagnosed no-op that advances the pc by 4 (48_sentinels_unknown.md R232; for unknown
funct values it is decision D8, the record's content D34). -/
def Obligations.StepDiagnosesUnknownWord : Prop :=
  ∀ (s : State) (w : Word) (e : DecodeReject), s.enc.running = false → s.exeRunning = true → s.pc.toNat % 4 = 0 →
    s.imem[s.pc.toNat / 4]? = some w → decode w = .error e →
    ∃ t, step s = .next t ∧ OnlyDiagnoses s t w (BitVec.ofNat 32 (s.pc.toNat + 4))

/-- A pc at or beyond the end of the program, misaligned or not, ends the run with `OffEnd` and no fetch
(41_executor_loop.md R169; the condition is decision D17). -/
def Obligations.PcBeyondProgramEndsTheRun : Prop :=
  ∀ s : State, s.enc.running = false → s.exeRunning = true → 4 * s.imem.length ≤ s.pc.toNat →
    ∃ t, step s = .next t ∧ EndsRun s t .offEnd ∧ t.trace = s.trace

/-- A pc inside the program that is not a multiple of 4 is the model's one fault of EXE: it carries the state the run
leaves, reason and dump set (41_executor_loop.md R169; decision D16, log entry 5). -/
def Obligations.MisalignedPcFaults : Prop :=
  ∀ s : State, s.enc.running = false → s.exeRunning = true → s.pc.toNat < 4 * s.imem.length → s.pc.toNat % 4 ≠ 0 →
    ∃ t, step s = .fault (.misalignedPc t) ∧ EndsRun s t .misalignedPc ∧ t.trace = s.trace

/-- After the run has ended no further step happens: the state is kept as it is (41_executor_loop.md R169; that `step` says so
by answering the same state is log entry 6). The same holds before the first launch (log entry 4): where no run of either
agent is in progress, nothing moves. -/
def Obligations.EndedRunTakesNoStep : Prop :=
  (∀ (s : State) (r : StopReason), s.enc.running = false → s.stop = some r → step s = .next s) ∧
  (∀ s : State, s.atRest = true → step s = .next s)

/-- A placed word is what the next step runs, from every state: `withFetchWord` with the word of a well-formed instruction
makes the next step that instruction (the model's own; log entry 4; for `rst` the instruction of word 0 is log entry 8). -/
def Obligations.PlacedWordRunsNext : Prop :=
  ∀ (s : State) (i : Instr), i.wellFormed = true →
    step (s.withFetchWord 32 (encode i).toNat) = exec i (s.withFetchWord 32 (encode i).toNat) ∧
      RegsKept s (s.withFetchWord 32 (encode i).toNat) ∧ MemKept s (s.withFetchWord 32 (encode i).toNat)

/-- EXE raises no exception and refuses nothing (60_exceptions.md R240): a step ends in a next state, but for the one fault a
model may name, a pc of a run in progress that lies inside the program and is no multiple of 4 (decision D16, log entry 5; a
step after the end of a run is log entry 6). -/
def Obligations.StepNeverTrapsOrRefuses : Prop :=
  ∀ s : State, (∃ t, step s = .next t) ∨
    (s.enc.running = false ∧ s.exeRunning = true ∧ s.pc.toNat < 4 * s.imem.length ∧ s.pc.toNat % 4 ≠ 0 ∧
      ∃ t, step s = .fault (.misalignedPc t))

/-! ### Frames -/

/-- No instruction changes a register other than the one its `rd` field names (10_state.md R24). -/
def Obligations.InstructionsWriteOnlyRd : Prop :=
  ∀ (i : Instr) (s t : State), exec i s = .next t → ∀ r, destOf i ≠ some r → t.reg r = s.reg r

/-- No instruction changes a data cell other than the one `sw` stores to; an instruction that stores nothing changes none
(20_memory.md R51, R56). -/
def Obligations.InstructionsStoreOnlyAtTheirAddress : Prop :=
  ∀ (i : Instr) (s t : State), exec i s = .next t →
    (∀ addr, storeAddrOf i s = some addr → ∀ a, a ≠ addr → t.load a = s.load a) ∧
    (storeAddrOf i s = none → ∀ a, t.load a = s.load a)

/-- The rest of the frame: the program, ENC and a run's being launched never change, diagnostics only by `rst`, the stop reason and the dump only
by `halt`, and every instruction but `halt` appends exactly one snapshot, of the state it leaves (41_executor_loop.md R168,
R174; decisions D9, D18, D33). -/
def Obligations.InstructionsKeepTheSurround : Prop :=
  ∀ (i : Instr) (s t : State), exec i s = .next t →
    t.imem = s.imem ∧ t.enc = s.enc ∧ t.launched = s.launched ∧ (i ≠ .rst → t.diag = s.diag) ∧
      (i ≠ .halt → t.stop = s.stop ∧ t.dump = s.dump ∧ OneSnapshot s t)

/-- The default next pc is the pc plus 4 modulo 2^32, but for a taken branch, `jal`, `jalr` and `halt`
(41_executor_loop.md R166; 10_state.md R26; the wrap is decision D15). -/
def Obligations.OnlyJumpsLeaveTheSequence : Prop :=
  ∀ (i : Instr) (s t : State), exec i s = .next t → t.pc ≠ BitVec.ofNat 32 (s.pc.toNat + 4) →
    (∃ rs1 rs2 off, i = .beq rs1 rs2 off ∧ s.reg rs1 = s.reg rs2) ∨
    (∃ rs1 rs2 off, i = .bne rs1 rs2 off ∧ s.reg rs1 ≠ s.reg rs2) ∨
    (∃ rd off, i = .jal rd off) ∨ (∃ rd rs1 imm, i = .jalr rd rs1 imm) ∨ i = .halt

/-- 20_memory.md R62: no step, a store included, changes an instruction word or what any later fetch reads. -/
def Obligations.ProgramIsImmutable : Prop :=
  ∀ s t : State, step s = .next t →
    t.imem = s.imem ∧ ∀ pc : Word, State.fetch { t with pc := pc } = State.fetch { s with pc := pc }

/-- 20_memory.md R50: the two address spaces are disjoint. No instruction's effect depends on the program or changes it, and
a fetch depends on nothing but the pc and the program. -/
def Obligations.AddressSpacesAreDisjoint : Prop :=
  (∀ (i : Instr) (s t : State) (prog : List Word), exec i s = .next t →
    t.imem = s.imem ∧ exec i { s with imem := prog } = .next { t with imem := prog }) ∧
  (∀ (s : State) (m : Memory), State.fetch { s with mem := m } = s.fetch) ∧
  (∀ s t : State, t.pc = s.pc → t.imem = s.imem → t.fetch = s.fetch)

/-- 10_state.md R34: the outputs never feed back. Two states that differ only in trace, diagnostics and dump step alike:
both to next states that again differ only there, or both to the fault of a misaligned pc (log entry 5), whose final states
differ only there. -/
def Obligations.OutputsDoNotFeedBack : Prop :=
  ∀ s s' : State, SameButOutputs s s' →
    (∀ t, step s = .next t → ∃ t', step s' = .next t' ∧ SameButOutputs t t') ∧
    (∀ t, step s = .fault (.misalignedPc t) → ∃ t', step s' = .fault (.misalignedPc t') ∧ SameButOutputs t t')

/-- The two agents share no state (00_scope.md R5): a step is ENC's and leaves all of EXE as it was, or EXE's and leaves
ENC as it was (which of the two moves is log entry 7). During a run of either the host has no move: starting ENC, launching
EXE and carrying words change nothing then. An EXE run, one of no word too, lasts from its launch to its stop reason, which
comes with the dump (70_reset_and_hazards.md R260, R264; that the launch is a field of State is log entry 4). -/
def Obligations.AgentsDoNotTouchEachOther : Prop :=
  (∀ s t : State, step s = .next t →
    (s.enc.running = true → ExeKept s t ∧ t.enc = s.enc.move) ∧ (s.enc.running = false → t.enc = s.enc)) ∧
  (∀ s : State, s.enc.running = true ∨ s.launched = true ∧ s.stop = none →
    (∀ src, s.startEncoder src = s) ∧ (∀ init words, s.launch init words = s) ∧ s.carryWords = s) ∧
  (∀ (s : State) (init : InitState) (words : List Word), s.atRest = true →
    (s.launch init words).launched = true ∧ (s.launch init words).stop = none) ∧
  (∀ s t : State, s.launched = true → s.stop = none → step s = .next t →
    t.launched = true ∧ (t.stop = none ∨ ∃ r, t.stop = some r ∧ t.dump = some t.dumpEntries))

/-! ### Invariants and reset -/

/-- 10_state.md R22: every read of `x[0]` gives 0, a write to it is discarded, `registers[0]` is 0 before and after every
step; an instruction whose `rd` is 0 changes no register, and the jumps of `jal` and `jalr` still happen. -/
def Obligations.RegisterZeroIsHardwired : Prop :=
  (∀ s : State, s.reg 0 = 0#32) ∧ (∀ (s : State) (v : Word), s.setReg 0 v = s) ∧
  (∀ s t : State, RegZero s → step s = .next t → RegZero t) ∧
  (∀ (i : Instr) (s t : State), destOf i = some 0 → exec i s = .next t → RegsKept s t) ∧
  (∀ (s : State) (off : BitVec 21), ∃ t, exec (.jal 0 off) s = .next t ∧ t.pc = s.jalTarget off) ∧
  (∀ (s : State) (rs1 : RegIdx) (imm : BitVec 12), ∃ t, exec (.jalr 0 rs1 imm) s = .next t ∧ t.pc = s.jalrTarget rs1 imm)

/-- Every step keeps data memory in its canonical form (the model's own representation; log entry 10). -/
def Obligations.StepKeepsMemoryCanonical : Prop :=
  ∀ s t : State, MemCanonical s → step s = .next t → MemCanonical t

/-- "bit 0 of the pc is always 0" (10_state.md R26): every step keeps it. -/
def Obligations.StepKeepsPcEven : Prop :=
  ∀ s t : State, PcEven s → step s = .next t → PcEven t

/-- Every step keeps a sound state sound: `x[0]` zero, memory canonical, pc even, the program addressable, the dump emitted
exactly when the run has ended, every snapshot with `x[0]` zero, ENC's bookkeeping sound, and the two agents never in the
middle of a run together. -/
def Obligations.StepKeepsSound : Prop :=
  ∀ s t : State, Sound s → step s = .next t → Sound t

/-- Every state that steps and the host's moves between runs reach from reset is sound. -/
def Obligations.ReachableStatesAreSound : Prop := ∀ s : State, Reachable s → Sound s

/-- The state after reset is sound, whatever `SP_SEED` is. -/
def Obligations.ResetIsSound : Prop := (∀ seed : Word, Sound (State.resetWith seed)) ∧ Sound State.reset

/-- The reset values (10_state.md R40 to R44; the index 2 and the OPEN seed are decision D11, the entry pc D10): stated for
every value of `SP_SEED`. That no run is launched yet is the model's own field (log entry 4). -/
def Obligations.ResetValues : Prop :=
  ∀ seed : Word,
    (∀ r : RegIdx, (State.resetWith seed).reg r = if r = 2 then seed else 0#32) ∧
    (State.resetWith seed).pc = 0#32 ∧ (∀ a, (State.resetWith seed).load a = 0#32) ∧
    (State.resetWith seed).trace = [] ∧ (State.resetWith seed).diag = [] ∧ (State.resetWith seed).dump = none ∧
    (State.resetWith seed).stop = none ∧ (State.resetWith seed).launched = false ∧
    (State.resetWith seed).enc = Encoder.reset ∧
    Encoder.reset.book.symtab = [] ∧ Encoder.reset.book.addr = 0 ∧ Encoder.reset.book.lineNo = 0 ∧ Encoder.reset.acc = []

/-- In the final state of a `MisalignedPc` run the pc is 2 modulo 4 (41_executor_loop.md R169; decision D16); it can be
nothing else because bit 0 of the pc is always 0. -/
def Obligations.MisalignedPcIsTwoModFour : Prop :=
  ∀ s t : State, PcEven s → step s = .fault (.misalignedPc t) → t.pc.toNat % 4 = 2 ∧ t.pc = s.pc

/-! ### Memory -/

/-- 20_memory.md R51: a read gives the word last written to exactly that address, or 0 if there was none; a write changes
no other cell; and a step that changes data memory is a step on `sw`. -/
def Obligations.MemoryPrimitives : Prop :=
  (∀ (s : State) (a v : Word), MemCanonical s → CellWritten s (s.store a v) a v) ∧
  (∀ (s : State) (a : Word), s.mem = [] → s.load a = 0#32) ∧
  (∀ s t : State, step s = .next t → t.mem ≠ s.mem →
    ∃ w rs2 rs1 imm, s.imem[s.pc.toNat / 4]? = some w ∧ decode w = .ok (.sw rs2 rs1 imm) ∧
      t.mem = (s.store (s.effAddr rs1 imm) (s.reg rs2)).mem)

/-- A load right after a store sees the stored value at exactly the same address and the old value at every other, however
close (20_memory.md R54, R59; cells by exact address are decision D13). -/
def Obligations.LoadAfterStore : Prop :=
  ∀ (s t u : State) (rs2 rs1 rd rb : RegIdx) (imm imm' : BitVec 12), MemCanonical s → rd ≠ 0 →
    exec (.sw rs2 rs1 imm) s = .next t → exec (.lw rd rb imm') t = .next u →
    u.reg rd = if s.effAddr rb imm' = s.effAddr rs1 imm then s.reg rs2 else s.load (s.effAddr rb imm')

/-- Equal memories are equal data: two canonical memories that read alike everywhere are the same list (the model's own
representation; log entry 10). -/
def Obligations.CanonicalMemoryIsExtensional : Prop :=
  ∀ m m' : Memory, m.wf = true → m'.wf = true → (∀ a : Nat, readCell m a = readCell m' a) → m = m'

/-! ### ENC -/

/-- An ENC run as a whole (40_encoder.md R110, R133, R134; one move per line is log entry 7): the host starts it from any
state in which neither agent runs, touching nothing of EXE; and from any state in which it has been started, some number of
steps leads to a state in which ENC has ended with exactly what `assemble` gives, all the words or one error and no word, and
all of EXE is as it was. -/
def Obligations.EncoderRunIsAssemble : Prop :=
  (∀ (s : State) (src : List Text), s.atRest = true →
    (s.startEncoder src).enc = Encoder.start src ∧ ExeKept s (s.startEncoder src)) ∧
  (∀ (s : State) (src : List Text), s.enc = Encoder.start src →
    ∃ t, Steps s t ∧ t.enc.running = false ∧ ExeKept s t ∧
      match assemble src with
      | .ok ws => t.enc.phase = .done ∧ t.enc.words = ws ∧ t.enc.err = none
      | .error e => t.enc.phase = .failed ∧ t.enc.words = [] ∧ t.enc.err = some e)

/-- 40_encoder.md R134: the words are those of the instruction lines in source order, `words[k]` from the line with address
`4*k`; as many words as lines; a program with no instruction line gives the empty list; the words are released and the
symbol table is discarded. The instruction lines are the lines of the source with a nonblank instruction text, in the order
of the source, each with its line number. -/
def Obligations.WordsFollowTheLines : Prop :=
  (∀ (src : List Text) (ws : List Word), assemble src = .ok ws → ∃ b, scanAll EncBook.reset src = .ok b ∧
    ws.length = b.recorded.length ∧
    ∀ k r w, b.recorded[k]? = some r → ws[k]? = some w → r.addr = 4 * k ∧ encodeLine b.symtab r = .ok w) ∧
  (∀ (src : List Text) (b : EncBook), scanAll EncBook.reset src = .ok b →
    b.recorded.map InstrLine.text = (src.map instructionText).filter (fun t => !t.isEmpty) ∧
    b.recorded.Pairwise (fun r r' => r.lineNo < r'.lineNo) ∧
    ∀ r ∈ b.recorded, 1 ≤ r.lineNo ∧ (src[r.lineNo - 1]?).map instructionText = some r.text) ∧
  (∀ (src : List Text) (b : EncBook), scanAll EncBook.reset src = .ok b → b.recorded = [] → assemble src = .ok []) ∧
  (∀ ws : List Word, (Encoder.finished ws).words = ws ∧ (Encoder.finished ws).book.symtab = [])

/-- The symbol table after pass 1 has no duplicate name, and every address in it is a multiple of 4 (10_state.md R32;
40_encoder.md R115), at most one past the last instruction line. -/
def Obligations.SymbolTableIsAPartialMap : Prop :=
  ∀ (src : List Text) (b : EncBook), scanAll EncBook.reset src = .ok b →
    (b.symtab.map Prod.fst).Nodup ∧ ∀ e ∈ b.symtab, e.2 % 4 = 0 ∧ e.2 ≤ 4 * b.recorded.length

/-- 40_encoder.md R114: defining a name the table already holds, exactly, fails with `DuplicateLabel` and the line of the
second definition, and an error of pass 1 anywhere is the error of the whole run. -/
def Obligations.DuplicateLabelFails : Prop :=
  (∀ (b : EncBook) (name : Text), defineLabel b name = .error (.duplicateLabel name) ↔
    isLabelName name = true ∧ name ∈ b.symtab.map Prod.fst) ∧
  (∀ (b : EncBook) (line name rest : Text), splitLabel (preprocess line) = some (name, rest) →
    isLabelName name = true → name ∈ b.symtab.map Prod.fst →
    scanLine b line = .error { kind := .duplicateLabel name, line := b.lineNo + 1 }) ∧
  (∀ (src : List Text) (e : EncError), scanAll EncBook.reset src = .error e → assemble src = .error e)

/-- 40_encoder.md R127 for a literal operand: the range each format checks, the error naming both bounds, and the field the
value is packed as; `slli`, `srli`, `sltiu`, `lui`, `auipc` check nothing and reduce. -/
def Obligations.ImmediateRangesAndFields : Prop :=
  ∀ (st : List (Text × Nat)) (addr : Nat) (txt a b c : Text) (r1 r2 : RegIdx) (v : Int),
    resolveReg a = .ok r1 → resolveReg b = .ok r2 → literal c = some v →
    parseOperands .addi st addr txt [a, b, c] =
      (if -2048 ≤ v ∧ v ≤ 2047 then .ok (.addi r1 r2 (BitVec.ofInt 12 v)) else .error (.immediateOutOfRange v (-2048) 2047)) ∧
    parseOperands .jalr st addr txt [a, b, c] =
      (if -2048 ≤ v ∧ v ≤ 2047 then .ok (.jalr r1 r2 (BitVec.ofInt 12 v)) else .error (.immediateOutOfRange v (-2048) 2047)) ∧
    (∀ m, splitMemOffset m = some (c, b) →
      parseOperands .lw st addr txt [a, m] =
        (if -2048 ≤ v ∧ v ≤ 2047 then .ok (.lw r1 r2 (BitVec.ofInt 12 v)) else .error (.immediateOutOfRange v (-2048) 2047)) ∧
      parseOperands .jalr st addr txt [a, m] =
        (if -2048 ≤ v ∧ v ≤ 2047 then .ok (.jalr r1 r2 (BitVec.ofInt 12 v)) else .error (.immediateOutOfRange v (-2048) 2047)) ∧
      parseOperands .sw st addr txt [a, m] =
        (if -2048 ≤ v ∧ v ≤ 2047 then .ok (.sw r1 r2 (BitVec.ofInt 12 v)) else .error (.immediateOutOfRange v (-2048) 2047))) ∧
    parseOperands .beq st addr txt [a, b, c] =
      (if -4096 ≤ v ∧ v ≤ 4095 then .ok (.beq r1 r2 (BitVec.ofInt 13 v)) else .error (.immediateOutOfRange v (-4096) 4095)) ∧
    parseOperands .bne st addr txt [a, b, c] =
      (if -4096 ≤ v ∧ v ≤ 4095 then .ok (.bne r1 r2 (BitVec.ofInt 13 v)) else .error (.immediateOutOfRange v (-4096) 4095)) ∧
    parseOperands .jal st addr txt [a, c] =
      (if -1048576 ≤ v ∧ v ≤ 1048575 then .ok (.jal r1 (BitVec.ofInt 21 v))
        else .error (.immediateOutOfRange v (-1048576) 1048575)) ∧
    parseOperands .slli st addr txt [a, b, c] = .ok (.slli r1 r2 (BitVec.ofInt 5 (v % 32))) ∧
    parseOperands .srli st addr txt [a, b, c] = .ok (.srli r1 r2 (BitVec.ofInt 5 (v % 32))) ∧
    parseOperands .sltiu st addr txt [a, b, c] = .ok (.sltiu r1 r2 (BitVec.ofInt 12 (v % 4096))) ∧
    parseOperands .lui st addr txt [a, c] = .ok (.lui r1 (BitVec.ofInt 32 (v % 2 ^ 32))) ∧
    parseOperands .auipc st addr txt [a, c] = .ok (.auipc r1 (BitVec.ofInt 32 (v % 2 ^ 32)))

/-- A label in a branch or `jal` (40_encoder.md R123; that label offsets are range-checked is decision D38, the opcodes D2):
within the range of the format the line assembles, its word decodes to it, and executed at its address, taken, it lands on the
label; past the range it fails with `ImmediateOutOfRange` and both bounds. -/
def Obligations.LabelBranchesLandOnTheLabel : Prop :=
  ∀ (st : List (Text × Nat)) (addr target : Nat) (txt a b name : Text) (r1 r2 : RegIdx) (s : State),
    resolveReg a = .ok r1 → resolveReg b = .ok r2 → literal name = none → lookupName st name = some target →
    addr % 4 = 0 → target % 4 = 0 → s.pc = BitVec.ofNat 32 addr →
    (if -4096 ≤ (target : Int) - addr ∧ (target : Int) - addr ≤ 4095 then
      (∃ i t, parseOperands .beq st addr txt [a, b, name] = .ok i ∧ decode (encode i) = .ok i ∧
        exec i s = .next t ∧ (s.reg r1 = s.reg r2 → t.pc = BitVec.ofNat 32 target)) ∧
      (∃ i t, parseOperands .bne st addr txt [a, b, name] = .ok i ∧ decode (encode i) = .ok i ∧
        exec i s = .next t ∧ (s.reg r1 ≠ s.reg r2 → t.pc = BitVec.ofNat 32 target))
    else
      parseOperands .beq st addr txt [a, b, name] = .error (.immediateOutOfRange ((target : Int) - addr) (-4096) 4095) ∧
      parseOperands .bne st addr txt [a, b, name] = .error (.immediateOutOfRange ((target : Int) - addr) (-4096) 4095)) ∧
    (if -1048576 ≤ (target : Int) - addr ∧ (target : Int) - addr ≤ 1048575 then
      ∃ i t, parseOperands .jal st addr txt [a, name] = .ok i ∧ decode (encode i) = .ok i ∧
        exec i s = .next t ∧ t.pc = BitVec.ofNat 32 target
    else
      parseOperands .jal st addr txt [a, name] =
        .error (.immediateOutOfRange ((target : Int) - addr) (-1048576) 1048575))

/-- Everything ENC emits EXE decodes to the instruction of the line's mnemonic, and only the mnemonic `halt` gives the halt
word (30_encoding.md R90; 48_sentinels_unknown.md R230; the halt word's value is decision D1, the opcodes D2). For a line
`rst` it says that word 0 decodes to `rst`, which is log entry 8: R231 and R232 call that word unknown in EXE (D9). -/
def Obligations.EmittedWordsDecodeToTheirMnemonic : Prop :=
  ∀ (st : List (Text × Nat)) (r : InstrLine) (w : Word), encodeLine st r = .ok w →
    ∃ i m, decode w = .ok i ∧ lookupName mnemonicNames (mnemonicText r.text) = some m ∧ i.mnem = m ∧
      (w = 0xFFFFFFFF#32 ↔ m = .halt)

/-- 40_encoder.md R120 with the numbering of 10_state.md R23 (decisions D3, D35): the 32 positional names, the 33 aliases, and
spellings that are not names. -/
def Obligations.RegisterNamesResolve : Prop :=
  (∀ n : RegIdx, resolveReg ('x' :: Nat.toDigits 10 n.val) = .ok n) ∧
  resolveReg ['z', 'e', 'r', 'o'] = .ok 0 ∧ resolveReg ['r', 'a'] = .ok 1 ∧ resolveReg ['s', 'p'] = .ok 2 ∧
  resolveReg ['g', 'p'] = .ok 3 ∧ resolveReg ['t', 'p'] = .ok 4 ∧ resolveReg ['t', '0'] = .ok 5 ∧
  resolveReg ['t', '1'] = .ok 6 ∧ resolveReg ['t', '2'] = .ok 7 ∧ resolveReg ['s', '0'] = .ok 8 ∧
  resolveReg ['s', '1'] = .ok 9 ∧ resolveReg ['a', '0'] = .ok 10 ∧ resolveReg ['a', '1'] = .ok 11 ∧
  resolveReg ['a', '2'] = .ok 12 ∧ resolveReg ['a', '3'] = .ok 13 ∧ resolveReg ['a', '4'] = .ok 14 ∧
  resolveReg ['a', '5'] = .ok 15 ∧ resolveReg ['a', '6'] = .ok 16 ∧ resolveReg ['a', '7'] = .ok 17 ∧
  resolveReg ['s', '2'] = .ok 18 ∧ resolveReg ['s', '3'] = .ok 19 ∧ resolveReg ['s', '4'] = .ok 20 ∧
  resolveReg ['s', '5'] = .ok 21 ∧ resolveReg ['s', '6'] = .ok 22 ∧ resolveReg ['s', '7'] = .ok 23 ∧
  resolveReg ['s', '8'] = .ok 24 ∧ resolveReg ['s', '9'] = .ok 25 ∧ resolveReg ['s', '1', '0'] = .ok 26 ∧
  resolveReg ['s', '1', '1'] = .ok 27 ∧ resolveReg ['t', '3'] = .ok 28 ∧ resolveReg ['t', '4'] = .ok 29 ∧
  resolveReg ['t', '5'] = .ok 30 ∧ resolveReg ['t', '6'] = .ok 31 ∧ resolveReg ['f', 'p'] = .ok 8 ∧
  resolveReg ['x', '3', '2'] = .error (.unknownRegister ['x', '3', '2']) ∧
  resolveReg ['x', '0', '7'] = .error (.unknownRegister ['x', '0', '7']) ∧
  resolveReg ['X', '1'] = .error (.unknownRegister ['X', '1']) ∧ resolveReg ['r', '1'] = .error (.unknownRegister ['r', '1']) ∧
  resolveReg ['s', '1', '2'] = .error (.unknownRegister ['s', '1', '2']) ∧
  resolveReg ['t', '7'] = .error (.unknownRegister ['t', '7']) ∧ resolveReg ['a', '8'] = .error (.unknownRegister ['a', '8'])

/-- 40_encoder.md R121 (the grammar is decision D22): a number written in decimal, or in hexadecimal digits of either case
after `0x` or `0X`, with or without a sign and leading zeros, is a literal of that value; a leading zero does not make it
octal. -/
def Obligations.LiteralsHaveTheirValue : Prop :=
  ∀ (n k : Nat) (ds : Text), ds.map Char.toLower = Nat.toDigits 16 n →
    let dec := List.replicate k '0' ++ Nat.toDigits 10 n
    let hex := List.replicate k '0' ++ ds
    literal dec = some (n : Int) ∧ literal ('+' :: dec) = some (n : Int) ∧ literal ('-' :: dec) = some (-(n : Int)) ∧
    literal ('0' :: 'x' :: hex) = some (n : Int) ∧ literal ('0' :: 'X' :: hex) = some (n : Int) ∧
    literal ('+' :: '0' :: 'x' :: hex) = some (n : Int) ∧ literal ('+' :: '0' :: 'X' :: hex) = some (n : Int) ∧
    literal ('-' :: '0' :: 'x' :: hex) = some (-(n : Int)) ∧ literal ('-' :: '0' :: 'X' :: hex) = some (-(n : Int))

/-- 30_encoding.md R93: a machine-code line is 32 characters `0` or `1` and a newline, character `k` is bit `31-k`, reading
the line gives the word back, and line `i` of the file is that of `words[i]`. -/
def Obligations.MachineCodeLineRoundTrip : Prop :=
  (∀ w : Word, (machineCodeLine w).length = 33 ∧ (machineCodeLine w)[32]? = some '\n' ∧
    (∀ k < 32, (machineCodeLine w)[k]? = some (if w.getLsbD (31 - k) then '1' else '0')) ∧
    readMachineCodeLine (machineCodeLine w) = some w) ∧
  (∀ ws : List Word, (machineCodeFile ws).length = 33 * ws.length ∧
    ∀ i w, ws[i]? = some w → ((machineCodeFile ws).drop (33 * i)).take 33 = machineCodeLine w)
end

