-- ==== Sys2Proof/Laws/Codec.lean ====
section
/-!
SUPPORT. The codec, field by field: what each field of a packed word is (30_encoding.md R71 to R77). One lemma per packer
and field, so that no later proof unfolds a packer.
-/

namespace Sys2Proof

@[simp] theorem regBits_toFin (r : RegIdx) : (regBits r).toFin = r := rfl

variable (f7 : BitVec 7) (f3 : BitVec 3) (op : BitVec 7) (rd rs1 rs2 : RegIdx) (i12 : BitVec 12) (i13 : BitVec 13)
  (i21 : BitVec 21) (v : BitVec 32)

/-! ### `pack_R` -/

@[simp] theorem opcodeOf_packR : opcodeOf (packR f7 rs2 rs1 f3 rd op) = op := by
  apply BitVec.eq_of_getLsbD_eq; intro i hi
  simp only [opcodeOf, packR, BitVec.getLsbD_extractLsb', BitVec.getLsbD_append]
  interval_cases i <;> simp

theorem rdBits_packR : (packR f7 rs2 rs1 f3 rd op).extractLsb' 7 5 = regBits rd := by
  apply BitVec.eq_of_getLsbD_eq; intro i hi
  simp only [packR, BitVec.getLsbD_extractLsb', BitVec.getLsbD_append]
  interval_cases i <;> simp

@[simp] theorem funct3Of_packR : funct3Of (packR f7 rs2 rs1 f3 rd op) = f3 := by
  apply BitVec.eq_of_getLsbD_eq; intro i hi
  simp only [funct3Of, packR, BitVec.getLsbD_extractLsb', BitVec.getLsbD_append]
  interval_cases i <;> simp

theorem rs1Bits_packR : (packR f7 rs2 rs1 f3 rd op).extractLsb' 15 5 = regBits rs1 := by
  apply BitVec.eq_of_getLsbD_eq; intro i hi
  simp only [packR, BitVec.getLsbD_extractLsb', BitVec.getLsbD_append]
  interval_cases i <;> simp

theorem rs2Bits_packR : (packR f7 rs2 rs1 f3 rd op).extractLsb' 20 5 = regBits rs2 := by
  apply BitVec.eq_of_getLsbD_eq; intro i hi
  simp only [packR, BitVec.getLsbD_extractLsb', BitVec.getLsbD_append]
  interval_cases i <;> simp

@[simp] theorem funct7Of_packR : funct7Of (packR f7 rs2 rs1 f3 rd op) = f7 := by
  apply BitVec.eq_of_getLsbD_eq; intro i hi
  simp only [funct7Of, packR, BitVec.getLsbD_extractLsb', BitVec.getLsbD_append]
  interval_cases i <;> simp

@[simp] theorem rdOf_packR : rdOf (packR f7 rs2 rs1 f3 rd op) = rd := by simp [rdOf, rdBits_packR]
@[simp] theorem rs1Of_packR : rs1Of (packR f7 rs2 rs1 f3 rd op) = rs1 := by simp [rs1Of, rs1Bits_packR]
@[simp] theorem rs2Of_packR : rs2Of (packR f7 rs2 rs1 f3 rd op) = rs2 := by simp [rs2Of, rs2Bits_packR]

/-! ### `pack_I` -/

@[simp] theorem opcodeOf_packI : opcodeOf (packI i12 rs1 f3 rd op) = op := by
  apply BitVec.eq_of_getLsbD_eq; intro i hi
  simp only [opcodeOf, packI, BitVec.getLsbD_extractLsb', BitVec.getLsbD_append]
  interval_cases i <;> simp

theorem rdBits_packI : (packI i12 rs1 f3 rd op).extractLsb' 7 5 = regBits rd := by
  apply BitVec.eq_of_getLsbD_eq; intro i hi
  simp only [packI, BitVec.getLsbD_extractLsb', BitVec.getLsbD_append]
  interval_cases i <;> simp

@[simp] theorem funct3Of_packI : funct3Of (packI i12 rs1 f3 rd op) = f3 := by
  apply BitVec.eq_of_getLsbD_eq; intro i hi
  simp only [funct3Of, packI, BitVec.getLsbD_extractLsb', BitVec.getLsbD_append]
  interval_cases i <;> simp

theorem rs1Bits_packI : (packI i12 rs1 f3 rd op).extractLsb' 15 5 = regBits rs1 := by
  apply BitVec.eq_of_getLsbD_eq; intro i hi
  simp only [packI, BitVec.getLsbD_extractLsb', BitVec.getLsbD_append]
  interval_cases i <;> simp

@[simp] theorem immIOf_packI : immIOf (packI i12 rs1 f3 rd op) = i12 := by
  apply BitVec.eq_of_getLsbD_eq; intro i hi
  simp only [immIOf, packI, BitVec.getLsbD_extractLsb', BitVec.getLsbD_append]
  interval_cases i <;> simp

@[simp] theorem rdOf_packI : rdOf (packI i12 rs1 f3 rd op) = rd := by simp [rdOf, rdBits_packI]
@[simp] theorem rs1Of_packI : rs1Of (packI i12 rs1 f3 rd op) = rs1 := by simp [rs1Of, rs1Bits_packI]

/-- The shift form of `pack_I` is `pack_R` with the amount in the `rs2` field (43_i_type.md R201). -/
theorem packI_shamt (sh : BitVec 5) : packI (f7 ++ sh) rs1 f3 rd op = packR f7 sh.toFin rs1 f3 rd op := by
  apply BitVec.eq_of_getLsbD_eq; intro i hi
  simp only [packI, packR, regBits, BitVec.ofFin_toFin, BitVec.getLsbD_append]

/-! ### `pack_S` -/

@[simp] theorem opcodeOf_packS : opcodeOf (packS i12 rs2 rs1 f3 op) = op := by
  apply BitVec.eq_of_getLsbD_eq; intro i hi
  simp only [opcodeOf, packS, BitVec.getLsbD_extractLsb', BitVec.getLsbD_append]
  interval_cases i <;> simp

@[simp] theorem funct3Of_packS : funct3Of (packS i12 rs2 rs1 f3 op) = f3 := by
  apply BitVec.eq_of_getLsbD_eq; intro i hi
  simp only [funct3Of, packS, BitVec.getLsbD_extractLsb', BitVec.getLsbD_append]
  interval_cases i <;> simp

theorem rs1Bits_packS : (packS i12 rs2 rs1 f3 op).extractLsb' 15 5 = regBits rs1 := by
  apply BitVec.eq_of_getLsbD_eq; intro i hi
  simp only [packS, BitVec.getLsbD_extractLsb', BitVec.getLsbD_append]
  interval_cases i <;> simp

theorem rs2Bits_packS : (packS i12 rs2 rs1 f3 op).extractLsb' 20 5 = regBits rs2 := by
  apply BitVec.eq_of_getLsbD_eq; intro i hi
  simp only [packS, BitVec.getLsbD_extractLsb', BitVec.getLsbD_append]
  interval_cases i <;> simp

@[simp] theorem immSOf_packS : immSOf (packS i12 rs2 rs1 f3 op) = i12 := by
  apply BitVec.eq_of_getLsbD_eq; intro i hi
  simp only [immSOf, packS, BitVec.getLsbD_extractLsb', BitVec.getLsbD_append]
  interval_cases i <;> simp

@[simp] theorem rs1Of_packS : rs1Of (packS i12 rs2 rs1 f3 op) = rs1 := by simp [rs1Of, rs1Bits_packS]
@[simp] theorem rs2Of_packS : rs2Of (packS i12 rs2 rs1 f3 op) = rs2 := by simp [rs2Of, rs2Bits_packS]

/-! ### `pack_B` -/

@[simp] theorem opcodeOf_packB : opcodeOf (packB i13 rs2 rs1 f3 op) = op := by
  apply BitVec.eq_of_getLsbD_eq; intro i hi
  simp only [opcodeOf, packB, BitVec.getLsbD_extractLsb', BitVec.getLsbD_append]
  interval_cases i <;> simp

@[simp] theorem funct3Of_packB : funct3Of (packB i13 rs2 rs1 f3 op) = f3 := by
  apply BitVec.eq_of_getLsbD_eq; intro i hi
  simp only [funct3Of, packB, BitVec.getLsbD_extractLsb', BitVec.getLsbD_append]
  interval_cases i <;> simp

theorem rs1Bits_packB : (packB i13 rs2 rs1 f3 op).extractLsb' 15 5 = regBits rs1 := by
  apply BitVec.eq_of_getLsbD_eq; intro i hi
  simp only [packB, BitVec.getLsbD_extractLsb', BitVec.getLsbD_append]
  interval_cases i <;> simp

theorem rs2Bits_packB : (packB i13 rs2 rs1 f3 op).extractLsb' 20 5 = regBits rs2 := by
  apply BitVec.eq_of_getLsbD_eq; intro i hi
  simp only [packB, BitVec.getLsbD_extractLsb', BitVec.getLsbD_append]
  interval_cases i <;> simp

/-- The B immediate comes back with bit 0 forced 0. -/
@[simp] theorem immBOf_packB : immBOf (packB i13 rs2 rs1 f3 op) = i13.extractLsb' 1 12 ++ 0#1 := by
  apply BitVec.eq_of_getLsbD_eq; intro i hi
  simp only [immBOf, packB, BitVec.getLsbD_extractLsb', BitVec.getLsbD_append]
  interval_cases i <;> simp

@[simp] theorem rs1Of_packB : rs1Of (packB i13 rs2 rs1 f3 op) = rs1 := by simp [rs1Of, rs1Bits_packB]
@[simp] theorem rs2Of_packB : rs2Of (packB i13 rs2 rs1 f3 op) = rs2 := by simp [rs2Of, rs2Bits_packB]

/-! ### `pack_U` -/

@[simp] theorem opcodeOf_packU : opcodeOf (packU v rd op) = op := by
  apply BitVec.eq_of_getLsbD_eq; intro i hi
  simp only [opcodeOf, packU, BitVec.getLsbD_extractLsb', BitVec.getLsbD_append]
  interval_cases i <;> simp

theorem rdBits_packU : (packU v rd op).extractLsb' 7 5 = regBits rd := by
  apply BitVec.eq_of_getLsbD_eq; intro i hi
  simp only [packU, BitVec.getLsbD_extractLsb', BitVec.getLsbD_append]
  interval_cases i <;> simp

/-- The U immediate comes back with its low 12 bits 0. -/
@[simp] theorem immUOf_packU : immUOf (packU v rd op) = v.extractLsb' 12 20 ++ 0#12 := by
  apply BitVec.eq_of_getLsbD_eq; intro i hi
  simp only [immUOf, packU, BitVec.getLsbD_extractLsb', BitVec.getLsbD_append]
  interval_cases i <;> simp

@[simp] theorem rdOf_packU : rdOf (packU v rd op) = rd := by simp [rdOf, rdBits_packU]

/-! ### `pack_J` -/

@[simp] theorem opcodeOf_packJ : opcodeOf (packJ i21 rd op) = op := by
  apply BitVec.eq_of_getLsbD_eq; intro i hi
  simp only [opcodeOf, packJ, BitVec.getLsbD_extractLsb', BitVec.getLsbD_append]
  interval_cases i <;> simp

theorem rdBits_packJ : (packJ i21 rd op).extractLsb' 7 5 = regBits rd := by
  apply BitVec.eq_of_getLsbD_eq; intro i hi
  simp only [packJ, BitVec.getLsbD_extractLsb', BitVec.getLsbD_append]
  interval_cases i <;> simp

/-- The J immediate comes back with bit 0 forced 0. -/
@[simp] theorem immJOf_packJ : immJOf (packJ i21 rd op) = i21.extractLsb' 1 20 ++ 0#1 := by
  apply BitVec.eq_of_getLsbD_eq; intro i hi
  simp only [immJOf, packJ, BitVec.getLsbD_extractLsb', BitVec.getLsbD_append]
  interval_cases i <;> simp

@[simp] theorem rdOf_packJ : rdOf (packJ i21 rd op) = rd := by simp [rdOf, rdBits_packJ]

/-! ### The fixed bits of a packed word: the mask of its row clears every operand field -/

theorem packR_and_mask : packR f7 rs2 rs1 f3 rd op &&& 0xFE00707F#32 = packR f7 0 0 f3 0 op := by
  apply BitVec.eq_of_getLsbD_eq; intro i hi
  simp only [packR, BitVec.getLsbD_and, BitVec.getLsbD_append]
  interval_cases i <;> simp [regBits]

theorem packI_and_mask : packI i12 rs1 f3 rd op &&& 0x0000707F#32 = packI 0 0 f3 0 op := by
  apply BitVec.eq_of_getLsbD_eq; intro i hi
  simp only [packI, BitVec.getLsbD_and, BitVec.getLsbD_append]
  interval_cases i <;> simp [regBits]

theorem packS_and_mask : packS i12 rs2 rs1 f3 op &&& 0x0000707F#32 = packS 0 0 0 f3 op := by
  apply BitVec.eq_of_getLsbD_eq; intro i hi
  simp only [packS, BitVec.getLsbD_and, BitVec.getLsbD_extractLsb', BitVec.getLsbD_append]
  interval_cases i <;> simp [regBits]

theorem packB_and_mask : packB i13 rs2 rs1 f3 op &&& 0x0000707F#32 = packB 0 0 0 f3 op := by
  apply BitVec.eq_of_getLsbD_eq; intro i hi
  simp only [packB, BitVec.getLsbD_and, BitVec.getLsbD_extractLsb', BitVec.getLsbD_append]
  interval_cases i <;> simp [regBits]

theorem packU_and_mask : packU v rd op &&& 0x0000007F#32 = packU 0 0 op := by
  apply BitVec.eq_of_getLsbD_eq; intro i hi
  simp only [packU, BitVec.getLsbD_and, BitVec.getLsbD_extractLsb', BitVec.getLsbD_append]
  interval_cases i <;> simp [regBits]

theorem packJ_and_mask : packJ i21 rd op &&& 0x0000007F#32 = packJ 0 0 op := by
  apply BitVec.eq_of_getLsbD_eq; intro i hi
  simp only [packJ, BitVec.getLsbD_and, BitVec.getLsbD_extractLsb', BitVec.getLsbD_append]
  interval_cases i <;> simp [regBits]

end Sys2Proof
end

