-- ==== Sys2Proof/Laws/Decode.lean ====
section
/-!
SUPPORT. The decoder: past the two whole words the opcode alone selects the format.
-/

namespace Sys2Proof

/-- The halt word's opcode is `1111111`. -/
theorem opcodeOf_haltWord : opcodeOf Config.haltWord = 0b1111111#7 := by decide

/-- The opcode of the word of `rst` is 0. -/
theorem opcodeOf_rstWord : opcodeOf Config.rstWord = 0#7 := by decide

/-- A word whose opcode is neither of those is decoded by its format. -/
theorem decode_eq_decodeFormat {w : Word} {op : BitVec 7} (h : opcodeOf w = op) (hh : op ≠ 0b1111111#7) (hr : op ≠ 0#7) :
    decode w = decodeFormat w := by
  unfold decode
  rw [if_neg, if_neg]
  · intro e; rw [e, opcodeOf_rstWord] at h; exact hr h.symm
  · intro e; rw [e, opcodeOf_haltWord] at h; exact hh h.symm

theorem decodeFormat_reg {w : Word} (h : opcodeOf w = opReg) : decodeFormat w = decodeReg w := by
  unfold decodeFormat; rw [if_pos h]

theorem decodeFormat_imm {w : Word} (h : opcodeOf w = opImm) : decodeFormat w = decodeImm w := by
  unfold decodeFormat; rw [h, if_neg (by decide), if_pos rfl]

theorem decodeFormat_branch {w : Word} (h : opcodeOf w = opBranch) : decodeFormat w = decodeBranch w := by
  unfold decodeFormat
  rw [h, if_neg (by decide), if_neg (by decide), if_neg (by decide), if_neg (by decide), if_neg (by decide), if_pos rfl]

end Sys2Proof
end

