-- ==== Sys2Proof/Laws/Encoder.lean ====
section
/-!
SUPPORT. What the operations of ENC can do, each said once.
-/

namespace Sys2Proof.Machine

/-- A lookup fails exactly on a name that is no key. -/
theorem lookupName_eq_none {α : Type} (l : List (Text × α)) (t : Text) :
    lookupName l t = none ↔ t ∉ l.map Prod.fst := by
  induction l with
  | nil => simp [lookupName]
  | cons c rest ih =>
    simp only [lookupName]
    split
    · next h => simp [h]
    · next h =>
      rw [ih]
      simp only [List.map_cons, List.mem_cons, not_or]
      exact ⟨fun hr => ⟨fun e => h e.symm, hr⟩, fun hr => hr.2⟩

/-- A successful lookup returns an entry of the list. -/
theorem mem_of_lookupName {α : Type} {l : List (Text × α)} {t : Text} {v : α} (h : lookupName l t = some v) :
    (t, v) ∈ l := by
  induction l with
  | nil => cases h
  | cons c rest ih =>
    simp only [lookupName] at h
    split at h
    · next hk =>
      obtain ⟨k, u⟩ := c
      cases h
      exact List.mem_cons.mpr (.inl (by simp_all))
    · exact List.mem_cons_of_mem _ (ih h)

/-- A chain of checks: the first error is the error of the whole. -/
theorem except_bind {ε α β : Type} (x : Except ε α) (f : α → Except ε β) :
    (x >>= f) = match x with | .ok a => f a | .error e => .error e := by
  cases x <;> rfl

@[simp] theorem recordLine_symtab (b : EncBook) (t : Text) : (recordLine b t).symtab = b.symtab := by
  unfold recordLine; split <;> rfl

@[simp] theorem recordLine_lineNo (b : EncBook) (t : Text) : (recordLine b t).lineNo = b.lineNo := by
  unfold recordLine; split <;> rfl

/-- A blank rest records nothing. -/
@[simp] theorem recordLine_blank (b : EncBook) : recordLine b [] = b := rfl

/-- A nonblank text is recorded at the address counter, which advances by 4. -/
theorem recordLine_text (b : EncBook) (t : Text) (h : t ≠ []) :
    recordLine b t = { b with addr := b.addr + 4
                              recorded := b.recorded ++ [{ lineNo := b.lineNo, addr := b.addr, text := t }] } := by
  unfold recordLine
  rw [if_neg (by simpa using h)]

/-- When a label is defined, and what that does. -/
theorem defineLabel_ok {b b' : EncBook} {name : Text} :
    defineLabel b name = .ok b' ↔
      isLabelName name = true ∧ name ∉ b.symtab.map Prod.fst ∧ b' = { b with symtab := b.symtab ++ [(name, b.addr)] } := by
  have hl := lookupName_eq_none b.symtab name
  unfold defineLabel
  split
  · next hn =>
    split
    · next v hv =>
      have : lookupName b.symtab name ≠ none := by rw [hv]; exact nofun
      constructor
      · exact nofun
      · rintro ⟨-, h, -⟩
        exact absurd (hl.mpr h) this
    · next hv => exact ⟨fun h => ⟨hn, hl.mp hv, by cases h; rfl⟩, fun ⟨_, _, h⟩ => by rw [h]⟩
  · next hn => exact ⟨nofun, fun h => absurd h.1 hn⟩

/-- The ways a source line is scanned. -/
inductive ScansTo (b : EncBook) (line : Text) (b' : EncBook) : Prop where
  /-- No label: the text, if any, is recorded. -/
  | plain : splitLabel (preprocess line) = none →
      b' = recordLine { b with lineNo := b.lineNo + 1 } (preprocess line) → ScansTo b line b'
  /-- A label: it is defined at the address counter, then the rest of the line, if any, is recorded. -/
  | labelled (name rest : Text) : splitLabel (preprocess line) = some (name, rest) → isLabelName name = true →
      name ∉ b.symtab.map Prod.fst →
      b' = recordLine { b with lineNo := b.lineNo + 1, symtab := b.symtab ++ [(name, b.addr)] } rest → ScansTo b line b'

/-- The inversion of a scanned line. -/
theorem scanLine_ok {b b' : EncBook} {line : Text} (h : scanLine b line = .ok b') : ScansTo b line b' := by
  unfold scanLine at h
  split at h
  · next c hc =>
    cases h
    unfold scanText at hc
    split at hc
    · next hs => cases hc; exact .plain hs rfl
    · next name rest hs =>
      split at hc
      · cases hc
      · next d hd =>
        cases hc
        obtain ⟨hn, hf, rfl⟩ := defineLabel_ok.mp hd
        exact .labelled name rest hs hn hf rfl
  · cases h

/-- What a scanned line records: its instruction text with its line number at the address counter, or nothing. -/
theorem scanLine_recorded {b b' : EncBook} {line : Text} (h : scanLine b line = .ok b') :
    b'.lineNo = b.lineNo + 1 ∧
      b'.recorded = if (instructionText line).isEmpty then b.recorded
        else b.recorded ++ [{ lineNo := b.lineNo + 1, addr := b.addr, text := instructionText line }] := by
  rcases scanLine_ok h with ⟨hs, rfl⟩ | ⟨name, rest, hs, -, -, rfl⟩ <;>
    simp only [instructionText, hs, recordLine_lineNo, true_and] <;> unfold recordLine <;> split <;> simp_all

/-- An error of pass 1 reports the line it was found on. -/
theorem scanLine_error {b : EncBook} {line : Text} {e : EncError} (h : scanLine b line = .error e) :
    e.line = b.lineNo + 1 := by
  unfold scanLine at h
  split at h
  · cases h
  · cases h; rfl

/-- A value within the bounds passes, any other is reported with both bounds. -/
theorem checkRange_eq (lo hi v : Int) :
    checkRange lo hi v = .ok v ∧ lo ≤ v ∧ v ≤ hi ∨ checkRange lo hi v = .error (.immediateOutOfRange v lo hi) ∧ ¬(lo ≤ v ∧ v ≤ hi) := by
  unfold checkRange
  split
  · next h => exact .inl ⟨rfl, h⟩
  · next h => exact .inr ⟨rfl, h⟩

/-- The ways ENC moves. -/
inductive MoveCases (e e' : Encoder) : Prop where
  /-- A line is scanned. -/
  | scanned (line : Text) (rest : List Text) (b : EncBook) : e.phase = .pass1 → e.src = line :: rest →
      scanLine e.book line = .ok b → e' = { e with src := rest, book := b } → MoveCases e e'
  /-- Pass 1 is over. -/
  | turned : e.phase = .pass1 → e.src = [] → e' = { e with phase := .pass2 } → MoveCases e e'
  /-- A recorded line is encoded. -/
  | encoded (r : InstrLine) (rest : List InstrLine) (w : Word) : e.phase = .pass2 → e.book.recorded = r :: rest →
      encodeLine e.book.symtab r = .ok w →
      e' = { e with book := { e.book with lineNo := r.lineNo, recorded := rest }, acc := e.acc ++ [w] } → MoveCases e e'
  /-- Pass 2 is over. -/
  | finished : e.phase = .pass2 → e.book.recorded = [] → e' = Encoder.finished e.acc → MoveCases e e'
  /-- A line is in error. -/
  | failed (err : EncError) : e.running = true → e' = Encoder.failed err → MoveCases e e'
  /-- No run is in progress. -/
  | still : e.running = false → e' = e → MoveCases e e'

/-- The inversion of ENC's move. -/
theorem move_cases (e : Encoder) : MoveCases e e.move := by
  unfold Encoder.move
  split
  · next hp =>
    unfold Encoder.movePass1
    split
    · next hs => exact .turned hp hs rfl
    · next line rest hs =>
      split
      · next b hb => exact .scanned line rest b hp hs hb rfl
      · next err _ => exact .failed err (by simp [Encoder.running, hp]) rfl
  · next hp =>
    unfold Encoder.movePass2
    split
    · next hr => exact .finished hp hr rfl
    · next r rest hr =>
      split
      · next w hw => exact .encoded r rest w hp hr hw rfl
      · next err _ => exact .failed err (by simp [Encoder.running, hp]) rfl
  · next hp => exact .still (by simp [Encoder.running, hp]) rfl
  · next hp => exact .still (by simp [Encoder.running, hp]) rfl
  · next hp => exact .still (by simp [Encoder.running, hp]) rfl

end Sys2Proof.Machine
end

