-- ==== Sys2Proof/Laws/State.lean ====
section
/-!
SUPPORT. What each operation leaves in each field of the state, by `rfl`; no later proof unfolds a record update.
-/

namespace Sys2Proof.Machine

variable (s : State) (r : RegIdx) (v w a npc : Word) (reason : StopReason)

/-! ### `setReg` -/
@[simp] theorem setReg_regs : (s.setReg r v).regs = writeRegs s.regs r v := rfl
@[simp] theorem setReg_pc : (s.setReg r v).pc = s.pc := rfl
@[simp] theorem setReg_mem : (s.setReg r v).mem = s.mem := rfl
@[simp] theorem setReg_imem : (s.setReg r v).imem = s.imem := rfl
@[simp] theorem setReg_trace : (s.setReg r v).trace = s.trace := rfl
@[simp] theorem setReg_diag : (s.setReg r v).diag = s.diag := rfl
@[simp] theorem setReg_dump : (s.setReg r v).dump = s.dump := rfl
@[simp] theorem setReg_stop : (s.setReg r v).stop = s.stop := rfl
@[simp] theorem setReg_launched : (s.setReg r v).launched = s.launched := rfl
@[simp] theorem setReg_enc : (s.setReg r v).enc = s.enc := rfl

/-! ### `store` -/
@[simp] theorem store_regs : (s.store a v).regs = s.regs := rfl
@[simp] theorem store_pc : (s.store a v).pc = s.pc := rfl
@[simp] theorem store_mem : (s.store a v).mem = writeCell s.mem a.toNat v := rfl
@[simp] theorem store_imem : (s.store a v).imem = s.imem := rfl
@[simp] theorem store_trace : (s.store a v).trace = s.trace := rfl
@[simp] theorem store_diag : (s.store a v).diag = s.diag := rfl
@[simp] theorem store_dump : (s.store a v).dump = s.dump := rfl
@[simp] theorem store_stop : (s.store a v).stop = s.stop := rfl
@[simp] theorem store_launched : (s.store a v).launched = s.launched := rfl
@[simp] theorem store_enc : (s.store a v).enc = s.enc := rfl

/-! ### `appendSnapshot` -/
@[simp] theorem appendSnapshot_regs : s.appendSnapshot.regs = s.regs := rfl
@[simp] theorem appendSnapshot_pc : s.appendSnapshot.pc = s.pc := rfl
@[simp] theorem appendSnapshot_mem : s.appendSnapshot.mem = s.mem := rfl
@[simp] theorem appendSnapshot_imem : s.appendSnapshot.imem = s.imem := rfl
@[simp] theorem appendSnapshot_trace : s.appendSnapshot.trace = s.trace ++ [s.snapshot] := rfl
@[simp] theorem appendSnapshot_diag : s.appendSnapshot.diag = s.diag := rfl
@[simp] theorem appendSnapshot_dump : s.appendSnapshot.dump = s.dump := rfl
@[simp] theorem appendSnapshot_stop : s.appendSnapshot.stop = s.stop := rfl
@[simp] theorem appendSnapshot_launched : s.appendSnapshot.launched = s.launched := rfl
@[simp] theorem appendSnapshot_enc : s.appendSnapshot.enc = s.enc := rfl

/-! ### `complete` -/
@[simp] theorem complete_regs : (s.complete npc).regs = s.regs := rfl
@[simp] theorem complete_pc : (s.complete npc).pc = npc := rfl
@[simp] theorem complete_mem : (s.complete npc).mem = s.mem := rfl
@[simp] theorem complete_imem : (s.complete npc).imem = s.imem := rfl
@[simp] theorem complete_trace :
    (s.complete npc).trace = s.trace ++ [{ pc := npc, regs := Vector.ofFn fun r => s.reg r }] := rfl
@[simp] theorem complete_diag : (s.complete npc).diag = s.diag := rfl
@[simp] theorem complete_dump : (s.complete npc).dump = s.dump := rfl
@[simp] theorem complete_stop : (s.complete npc).stop = s.stop := rfl
@[simp] theorem complete_launched : (s.complete npc).launched = s.launched := rfl
@[simp] theorem complete_enc : (s.complete npc).enc = s.enc := rfl

/-! ### `report` -/
@[simp] theorem report_regs : (s.report w).regs = s.regs := rfl
@[simp] theorem report_pc : (s.report w).pc = s.pc := rfl
@[simp] theorem report_mem : (s.report w).mem = s.mem := rfl
@[simp] theorem report_imem : (s.report w).imem = s.imem := rfl
@[simp] theorem report_trace : (s.report w).trace = s.trace := rfl
@[simp] theorem report_diag : (s.report w).diag = s.diag ++ [{ pc := s.pc, word := w }] := rfl
@[simp] theorem report_dump : (s.report w).dump = s.dump := rfl
@[simp] theorem report_stop : (s.report w).stop = s.stop := rfl
@[simp] theorem report_launched : (s.report w).launched = s.launched := rfl
@[simp] theorem report_enc : (s.report w).enc = s.enc := rfl

/-! ### `endRun` -/
@[simp] theorem endRun_regs : (s.endRun reason).regs = s.regs := rfl
@[simp] theorem endRun_pc : (s.endRun reason).pc = s.pc := rfl
@[simp] theorem endRun_mem : (s.endRun reason).mem = s.mem := rfl
@[simp] theorem endRun_imem : (s.endRun reason).imem = s.imem := rfl
@[simp] theorem endRun_trace : (s.endRun reason).trace = s.trace := rfl
@[simp] theorem endRun_diag : (s.endRun reason).diag = s.diag := rfl
@[simp] theorem endRun_dump : (s.endRun reason).dump = some s.dumpEntries := rfl
@[simp] theorem endRun_stop : (s.endRun reason).stop = some reason := rfl
@[simp] theorem endRun_launched : (s.endRun reason).launched = s.launched := rfl
@[simp] theorem endRun_enc : (s.endRun reason).enc = s.enc := rfl

/-! ### `encStep` -/
@[simp] theorem encStep_regs : (encStep s).regs = s.regs := rfl
@[simp] theorem encStep_pc : (encStep s).pc = s.pc := rfl
@[simp] theorem encStep_mem : (encStep s).mem = s.mem := rfl
@[simp] theorem encStep_imem : (encStep s).imem = s.imem := rfl
@[simp] theorem encStep_trace : (encStep s).trace = s.trace := rfl
@[simp] theorem encStep_diag : (encStep s).diag = s.diag := rfl
@[simp] theorem encStep_dump : (encStep s).dump = s.dump := rfl
@[simp] theorem encStep_stop : (encStep s).stop = s.stop := rfl
@[simp] theorem encStep_launched : (encStep s).launched = s.launched := rfl
@[simp] theorem encStep_enc : (encStep s).enc = s.enc.move := rfl

/-! ### When a run is in progress -/

theorem exeRunning_iff : s.exeRunning = true ↔ s.launched = true ∧ s.stop = none := by simp [State.exeRunning]

@[simp] theorem endRun_exeRunning : (s.endRun reason).exeRunning = false := by simp [State.exeRunning]

/-! ### What reads and outputs depend on -/

theorem reg_of_regs {s t : State} (h : t.regs = s.regs) (r : RegIdx) : t.reg r = s.reg r := by
  simp only [State.reg, h]

theorem load_of_mem {s t : State} (h : t.mem = s.mem) (a : Word) : t.load a = s.load a := by
  simp only [State.load, h]

theorem fetch_of_pc_imem {s t : State} (hp : t.pc = s.pc) (hi : t.imem = s.imem) : t.fetch = s.fetch := by
  simp only [State.fetch, hp, hi]

theorem dumpEntries_of_mem {s t : State} (h : t.mem = s.mem) : t.dumpEntries = s.dumpEntries := by
  simp only [State.dumpEntries, load_of_mem h]

end Sys2Proof.Machine
end

