-- ==== Sys2Proof/Laws/Launch.lean ====
section
/-!
SUPPORT. When the host may move, and what its moves do then.
-/

namespace Sys2Proof.Machine

theorem atRest_iff (s : State) : s.atRest = true ↔ s.enc.running = false ∧ s.exeRunning = false := by
  simp [State.atRest]

theorem startEncoder_of_atRest {s : State} (src : List Text) (h : s.atRest = true) :
    s.startEncoder src = { s with enc := Encoder.start src } := if_pos h

theorem launch_of_atRest {s : State} (init : InitState) (words : List Word) (h : s.atRest = true) :
    s.launch init words =
      { s with regs := init.regs, pc := init.pc, mem := init.mem, imem := words, trace := [], diag := [], dump := none
               stop := none, launched := true } := if_pos h

/-- A launch starts a run, of no word too (70_reset_and_hazards.md R260). -/
theorem launch_exeRunning {s : State} (init : InitState) (words : List Word) (h : s.atRest = true) :
    (s.launch init words).exeRunning = true := by
  rw [launch_of_atRest init words h]; rfl

/-- A move of the host never touches a machine in the middle of a run. -/
theorem launch_cases (s : State) (init : InitState) (words : List Word) :
    s.atRest = true ∨ s.launch init words = s := by
  by_cases h : s.atRest = true
  · exact .inl h
  · exact .inr (if_neg h)

theorem startEncoder_cases (s : State) (src : List Text) : s.atRest = true ∨ s.startEncoder src = s := by
  by_cases h : s.atRest = true
  · exact .inl h
  · exact .inr (if_neg h)

end Sys2Proof.Machine
end

