-- ==== Sys2Proof/Laws/Memory.lean ====
section
/-!
SUPPORT. Data memory: reads after writes, and that every operation keeps the canonical form.
-/

namespace Sys2Proof.Machine

/-- The canonical form, read as a proposition. -/
theorem Memory.wf_iff (m : Memory) :
    m.wf = true ↔ (m.Pairwise fun c d => c.1 < d.1) ∧ ∀ c ∈ m, c.1 < 2 ^ 32 ∧ c.2 ≠ 0#32 := by
  simp [Memory.wf]

theorem Memory.wf_nil : Memory.wf [] = true := by decide

/-- An address below every listed one reads 0. -/
theorem readCell_eq_zero (m : Memory) (a : Nat) (h : ∀ c ∈ m, c.1 ≠ a) : readCell m a = 0#32 := by
  induction m with
  | nil => rfl
  | cons c rest ih =>
    obtain ⟨k, v⟩ := c
    have hk : k ≠ a := h (k, v) (by simp)
    simp only [readCell, hk, if_false]
    exact ih fun d hd => h d (by simp [hd])

/-- The written cell reads the value written. -/
theorem readCell_writeCell_same (m : Memory) (a : Nat) (v : Word)
    (h : m.Pairwise fun c d => c.1 < d.1) : readCell (writeCell m a v) a = v := by
  induction m with
  | nil => by_cases hv : v = 0#32 <;> simp [writeCell, readCell, hv]
  | cons c rest ih =>
    obtain ⟨k, u⟩ := c
    obtain ⟨hk, hrest⟩ := List.pairwise_cons.mp h
    have later : ∀ b, b ≤ k → ∀ c ∈ rest, c.1 ≠ b := fun b hb c hc => by
      have := hk c hc; simp only at this; omega
    simp only [writeCell]
    split
    · next hlt =>
      split
      · next hv =>
        have : k ≠ a := by omega
        simp [readCell, this, hv, readCell_eq_zero rest a (later a (by omega))]
      · simp [readCell]
    · split
      · next hlt heq =>
        split
        · next hv => rw [hv]; exact readCell_eq_zero rest a (later a (by omega))
        · simp [readCell]
      · next hlt hne =>
        have : k ≠ a := fun e => hne e.symm
        simp [readCell, this, ih hrest]

/-- Every other cell reads as before. -/
theorem readCell_writeCell_other (m : Memory) (a b : Nat) (v : Word) (hab : b ≠ a) :
    readCell (writeCell m a v) b = readCell m b := by
  have hba : a ≠ b := fun e => hab e.symm
  induction m with
  | nil => by_cases hv : v = 0#32 <;> simp [writeCell, readCell, hv, hba]
  | cons c rest ih =>
    obtain ⟨k, u⟩ := c
    simp only [writeCell]
    split
    · split <;> simp [readCell, hba]
    · split
      · next hlt heq =>
        subst heq
        split <;> simp [readCell, hba]
      · simp [readCell, ih]

/-- The cells of a written memory: the new one and old ones. -/
theorem mem_writeCell (m : Memory) (a : Nat) (v : Word) (c : Nat × Word) (h : c ∈ writeCell m a v) :
    (c = (a, v) ∧ v ≠ 0#32) ∨ c ∈ m := by
  induction m with
  | nil =>
    by_cases hv : v = 0#32
    · simp [writeCell, hv] at h
    · simp [writeCell, hv] at h; exact .inl ⟨h, hv⟩
  | cons d rest ih =>
    obtain ⟨k, u⟩ := d
    simp only [writeCell] at h
    split at h
    · split at h
      · exact .inr h
      · next hv =>
        rcases List.mem_cons.mp h with e | e
        · exact .inl ⟨e, hv⟩
        · exact .inr e
    · split at h
      · split at h
        · exact .inr (List.mem_cons_of_mem _ h)
        · next hv =>
          rcases List.mem_cons.mp h with e | e
          · exact .inl ⟨e, hv⟩
          · exact .inr (List.mem_cons_of_mem _ e)
      · rcases List.mem_cons.mp h with e | e
        · exact .inr (by simp [e])
        · rcases ih e with e' | e'
          · exact .inl e'
          · exact .inr (List.mem_cons_of_mem _ e')

/-- A write keeps addresses strictly rising. -/
theorem writeCell_pairwise (m : Memory) (a : Nat) (v : Word) (h : m.Pairwise fun c d => c.1 < d.1) :
    (writeCell m a v).Pairwise fun c d => c.1 < d.1 := by
  induction m with
  | nil => by_cases hv : v = 0#32 <;> simp [writeCell, hv]
  | cons d rest ih =>
    obtain ⟨k, u⟩ := d
    obtain ⟨hk, hrest⟩ := List.pairwise_cons.mp h
    simp only at hk
    simp only [writeCell]
    split
    · next hlt =>
      split
      · exact h
      · refine List.pairwise_cons.mpr ⟨fun c hc => ?_, h⟩
        rcases List.mem_cons.mp hc with e | e
        · rw [e]; exact hlt
        · exact hlt.trans (hk c e)
    · split
      · next hlt heq =>
        subst heq
        split
        · exact hrest
        · exact List.pairwise_cons.mpr ⟨hk, hrest⟩
      · next hlt hne =>
        refine List.pairwise_cons.mpr ⟨fun c hc => ?_, ih hrest⟩
        rcases mem_writeCell rest a v c hc with ⟨e, -⟩ | e
        · rw [e]; simp only; omega
        · exact hk c e

/-- A write keeps the canonical form. -/
theorem writeCell_wf (m : Memory) (a : Nat) (v : Word) (h : m.wf = true) (ha : a < 2 ^ 32) :
    Memory.wf (writeCell m a v) = true := by
  obtain ⟨hp, hc⟩ := (Memory.wf_iff m).mp h
  refine (Memory.wf_iff _).mpr ⟨writeCell_pairwise m a v hp, fun c hm => ?_⟩
  rcases mem_writeCell m a v c hm with ⟨e, hv⟩ | e
  · rw [e]; exact ⟨ha, hv⟩
  · exact hc c e

/-- Every store keeps the canonical form. -/
theorem store_memCanonical (s : State) (a v : Word) (h : MemCanonical s) : MemCanonical (s.store a v) :=
  writeCell_wf s.mem a.toNat v h a.isLt

/-- What a store does to every cell, aligned or not (20_memory.md R51, R54). -/
theorem store_cellWritten (s : State) (a v : Word) (h : MemCanonical s) : CellWritten s (s.store a v) a v := by
  intro b
  by_cases hb : b = a
  · subst hb
    simp only [State.load, store_mem, if_true]
    exact readCell_writeCell_same s.mem b.toNat v ((Memory.wf_iff _).mp h).1
  · have : b.toNat ≠ a.toNat := fun e => hb (BitVec.eq_of_toNat_eq e)
    simp only [State.load, store_mem, hb, if_false]
    exact readCell_writeCell_other s.mem a.toNat b.toNat v this

@[simp] theorem load_setReg (s : State) (r : RegIdx) (v a : Word) : (s.setReg r v).load a = s.load a := rfl
@[simp] theorem load_complete (s : State) (npc a : Word) : (s.complete npc).load a = s.load a := rfl
@[simp] theorem load_report (s : State) (w a : Word) : (s.report w).load a = s.load a := rfl

end Sys2Proof.Machine
end

