-- ==== Sys2Proof/Laws/Registers.lean ====
section
/-!
SUPPORT. The register file: what a read gives after a write, for every register, and the hardwired zero.
-/

namespace Sys2Proof.Machine

/-- A read after a write, the whole story in one equation. -/
theorem readRegs_writeRegs (regs : Vector Word 32) (rd r : RegIdx) (v : Word) :
    readRegs (writeRegs regs rd v) r = if r = 0 then 0#32 else if r = rd then v else readRegs regs r := by
  by_cases hr : r = 0
  · simp [readRegs, hr]
  by_cases hd : rd = 0
  · have : r ≠ rd := fun h => hr (h.trans hd)
    simp [readRegs, writeRegs, hr, hd]
  by_cases h : r = rd
  · subst h; simp [readRegs, writeRegs, hr]
  · have : rd.val ≠ r.val := fun e => h (Fin.ext e.symm)
    simp [readRegs, writeRegs, hr, hd, h, this]

@[simp] theorem readRegs_zero (regs : Vector Word 32) : readRegs regs 0 = 0#32 := by simp [readRegs]

/-- The slot of `x[0]` is never written. -/
@[simp] theorem writeRegs_slot_zero (regs : Vector Word 32) (rd : RegIdx) (v : Word) :
    (writeRegs regs rd v)[0] = regs[0] := by
  unfold writeRegs
  split
  · rfl
  · next h =>
    have : rd.val ≠ 0 := fun e => h (Fin.ext e)
    simp [this]

@[simp] theorem reg_zero (s : State) : s.reg 0 = 0#32 := readRegs_zero s.regs

theorem reg_setReg (s : State) (rd r : RegIdx) (v : Word) :
    (s.setReg rd v).reg r = if r = 0 then 0#32 else if r = rd then v else s.reg r :=
  readRegs_writeRegs s.regs rd r v

@[simp] theorem reg_complete (s : State) (npc : Word) (r : RegIdx) : (s.complete npc).reg r = s.reg r := rfl
@[simp] theorem reg_report (s : State) (w : Word) (r : RegIdx) : (s.report w).reg r = s.reg r := rfl
@[simp] theorem reg_store (s : State) (a v : Word) (r : RegIdx) : (s.store a v).reg r = s.reg r := rfl
@[simp] theorem reg_endRun (s : State) (reason : StopReason) (r : RegIdx) : (s.endRun reason).reg r = s.reg r := rfl

/-- A snapshot shows every register as it reads. -/
@[simp] theorem snapshot_reg (s : State) (r : RegIdx) : s.snapshot.regs[r.val] = s.reg r := by
  simp [State.snapshot]

@[simp] theorem snapshot_pc (s : State) : s.snapshot.pc = s.pc := rfl

theorem appendSnapshot_oneSnapshot (s : State) : OneSnapshot s s.appendSnapshot :=
  ⟨s.snapshot, rfl, rfl, snapshot_reg s⟩

/-- The snapshot a completed step appends shows the state it leaves. -/
theorem complete_oneSnapshot (s : State) (npc : Word) : OneSnapshot s (s.complete npc) :=
  ⟨_, rfl, rfl, snapshot_reg { s with pc := npc }⟩

/-! ### What each way to complete a step does, as a whole -/

/-- An instruction that writes `rd` and sets the pc. -/
theorem setReg_complete_writesRegister (s : State) (rd : RegIdx) (v npc : Word) :
    WritesRegister s ((s.setReg rd v).complete npc) rd v npc :=
  ⟨fun r => reg_setReg s rd r v, rfl, fun _ => rfl, rfl, ⟨rfl, rfl, rfl, rfl, rfl⟩, complete_oneSnapshot (s.setReg rd v) npc⟩

/-- An instruction that writes `rd` and takes the default next pc. -/
theorem writeBack_writesRegister (s : State) (rd : RegIdx) (v : Word) :
    WritesRegister s (s.writeBack rd v) rd v s.nextPc :=
  setReg_complete_writesRegister s rd v s.nextPc

/-- An instruction that only sets the pc. -/
theorem complete_onlyMovesPc (s : State) (npc : Word) : OnlyMovesPc s (s.complete npc) npc :=
  ⟨fun _ => rfl, rfl, fun _ => rfl, rfl, ⟨rfl, rfl, rfl, rfl, rfl⟩, complete_oneSnapshot s npc⟩

/-- An unknown word (48_sentinels_unknown.md R232). -/
theorem unknownWord_onlyDiagnoses (s : State) (w : Word) : OnlyDiagnoses s (s.unknownWord w) w s.nextPc :=
  ⟨fun _ => rfl, rfl, fun _ => rfl, rfl, ⟨rfl, rfl, rfl, rfl, rfl⟩, complete_oneSnapshot (s.report w) s.nextPc⟩

/-- The end of a run (41_executor_loop.md R169, R171). -/
theorem endRun_endsRun (s : State) (reason : StopReason) : EndsRun s (s.endRun reason) reason where
  regs _ := rfl
  pc := rfl
  mem _ := rfl
  diag := rfl
  imem := rfl
  launched := rfl
  enc := rfl
  stop := rfl
  dump := ⟨_, rfl, by simp [State.dumpEntries], fun k h => by simp [State.dumpEntries, dumpAddr]⟩

end Sys2Proof.Machine
end

