-- ==== Sys2Proof/Laws/Operands.lean ====
section
/-!
SUPPORT. The operand forms in integer arithmetic: each address, target and link value as a number modulo 2^32, and which of
them are even.
-/

namespace Sys2Proof.Machine

/-- The default next pc is the pc plus 4 modulo 2^32. -/
theorem nextPc_eq (s : State) : s.nextPc = BitVec.ofNat 32 (s.pc.toNat + 4) := by
  apply BitVec.eq_of_toNat_eq
  simp [State.nextPc]

/-- Adding a sign-extended vector adds its signed value modulo 2^32. -/
theorem add_signExtend {n : Nat} (x : Word) (off : BitVec n) :
    x + off.signExtend 32 = BitVec.ofInt 32 (x.toNat + off.toInt) := by
  apply BitVec.eq_of_toNat_eq
  simp only [BitVec.signExtend, BitVec.toNat_add, BitVec.toNat_ofInt]
  omega

theorem effAddr_eq (s : State) (rs1 : RegIdx) (imm : BitVec 12) :
    s.effAddr rs1 imm = BitVec.ofInt 32 ((s.reg rs1).toNat + imm.toInt) := add_signExtend _ _

theorem branchTarget_eq (s : State) (off : BitVec 13) :
    s.branchTarget off = BitVec.ofInt 32 (s.pc.toNat + off.toInt) := add_signExtend _ _

theorem jalTarget_eq (s : State) (off : BitVec 21) :
    s.jalTarget off = BitVec.ofInt 32 (s.pc.toNat + off.toInt) := add_signExtend _ _

/-- Clearing bit 0 rounds down to an even number. -/
theorem and_clear_bit0 (x : Word) : (x &&& 0xFFFFFFFE#32).toNat = x.toNat / 2 * 2 := by
  have h : x &&& 0xFFFFFFFE#32 = (x >>> 1) <<< 1 := by
    apply BitVec.eq_of_getLsbD_eq
    intro i hi
    interval_cases i <;> simp
  rw [h]
  simp [Nat.shiftRight_eq_div_pow, Nat.shiftLeft_eq]
  have := x.isLt
  omega

/-- A `jalr` target is even, whatever the register holds (43_i_type.md R204). -/
theorem jalrTarget_even (s : State) (rs1 : RegIdx) (imm : BitVec 12) : (s.jalrTarget rs1 imm).toNat % 2 = 0 := by
  rw [State.jalrTarget, and_clear_bit0]
  omega

/-- Clearing the low two bits rounds down to a multiple of 4. -/
theorem alignPc_toNat (x : Word) : (alignPc x).toNat = x.toNat / 4 * 4 := by
  have h : alignPc x = (x >>> 2) <<< 2 := by
    apply BitVec.eq_of_getLsbD_eq
    intro i hi
    unfold alignPc
    interval_cases i <;> simp
  rw [h]
  simp [Nat.shiftRight_eq_div_pow, Nat.shiftLeft_eq]
  have := x.isLt
  omega

/-- The signed value of a vector whose bit 0 is 0 is even. -/
theorem toInt_even {n : Nat} (off : BitVec n) (hn : 0 < n) (h : off.getLsbD 0 = false) : off.toInt % 2 = 0 := by
  have h0 : off.toNat % 2 = 0 := by
    have := h
    rw [BitVec.getLsbD, Nat.testBit_zero] at this
    simpa using this
  have hp : (2 ^ n : Nat) % 2 = 0 := by
    obtain ⟨k, rfl⟩ : ∃ k, n = k + 1 := ⟨n - 1, by omega⟩
    rw [Nat.pow_succ]
    omega
  rw [BitVec.toInt_eq_toNat_cond]
  split <;> omega

/-- An even pc plus an even offset is even (10_state.md R26). -/
theorem add_signExtend_even {n : Nat} (x : Word) (off : BitVec n) (hn : 0 < n) (hx : x.toNat % 2 = 0)
    (h : off.getLsbD 0 = false) : (x + off.signExtend 32).toNat % 2 = 0 := by
  rw [add_signExtend, BitVec.toNat_ofInt]
  have := toInt_even off hn h
  omega

theorem nextPc_even (s : State) (h : s.pc.toNat % 2 = 0) : s.nextPc.toNat % 2 = 0 := by
  rw [nextPc_eq, BitVec.toNat_ofNat]
  omega

end Sys2Proof.Machine
end

