-- ==== Sys2Proof/Laws/PerInstr.lean ====
section
/-!
SUPPORT. A fact of every instruction as syntax, one lemma per constructor: its word carries the fixed bits of its row of the
opcode table (30_encoding.md R86).
-/

namespace Sys2Proof.Laws

/-- The row of a mnemonic, read off the table. -/
def rowOf (m : Mnem) : Option OpcodeRow := opcodeTable.find? fun row => row.mnem == m

/-- The instruction's word matches its own row. -/
def EncodesToRow.Statement (i : Instr) : Prop := ∃ row, rowOf i.mnem = some row ∧ encode i &&& row.mask = row.bits

theorem EncodesToRow.add (rd : RegIdx) (rs1 : RegIdx) (rs2 : RegIdx) : EncodesToRow.Statement (.add rd rs1 rs2) :=
  ⟨_, rfl, (packR_and_mask _ _ _ _ _ _).trans (by decide)⟩

theorem EncodesToRow.sub (rd : RegIdx) (rs1 : RegIdx) (rs2 : RegIdx) : EncodesToRow.Statement (.sub rd rs1 rs2) :=
  ⟨_, rfl, (packR_and_mask _ _ _ _ _ _).trans (by decide)⟩

theorem EncodesToRow.slt (rd : RegIdx) (rs1 : RegIdx) (rs2 : RegIdx) : EncodesToRow.Statement (.slt rd rs1 rs2) :=
  ⟨_, rfl, (packR_and_mask _ _ _ _ _ _).trans (by decide)⟩

theorem EncodesToRow.xor (rd : RegIdx) (rs1 : RegIdx) (rs2 : RegIdx) : EncodesToRow.Statement (.xor rd rs1 rs2) :=
  ⟨_, rfl, (packR_and_mask _ _ _ _ _ _).trans (by decide)⟩

theorem EncodesToRow.srl (rd : RegIdx) (rs1 : RegIdx) (rs2 : RegIdx) : EncodesToRow.Statement (.srl rd rs1 rs2) :=
  ⟨_, rfl, (packR_and_mask _ _ _ _ _ _).trans (by decide)⟩

theorem EncodesToRow.or (rd : RegIdx) (rs1 : RegIdx) (rs2 : RegIdx) : EncodesToRow.Statement (.or rd rs1 rs2) :=
  ⟨_, rfl, (packR_and_mask _ _ _ _ _ _).trans (by decide)⟩

theorem EncodesToRow.and (rd : RegIdx) (rs1 : RegIdx) (rs2 : RegIdx) : EncodesToRow.Statement (.and rd rs1 rs2) :=
  ⟨_, rfl, (packR_and_mask _ _ _ _ _ _).trans (by decide)⟩

theorem EncodesToRow.addi (rd : RegIdx) (rs1 : RegIdx) (imm : BitVec 12) : EncodesToRow.Statement (.addi rd rs1 imm) :=
  ⟨_, rfl, (packI_and_mask _ _ _ _ _).trans (by decide)⟩

theorem EncodesToRow.slli (rd : RegIdx) (rs1 : RegIdx) (shamt : BitVec 5) : EncodesToRow.Statement (.slli rd rs1 shamt) :=
  ⟨_, rfl, (congrArg (· &&& 0xFE00707F#32) (packI_shamt _ _ _ _ _ _)).trans ((packR_and_mask _ _ _ _ _ _).trans (by decide))⟩

theorem EncodesToRow.sltiu (rd : RegIdx) (rs1 : RegIdx) (imm : BitVec 12) : EncodesToRow.Statement (.sltiu rd rs1 imm) :=
  ⟨_, rfl, (packI_and_mask _ _ _ _ _).trans (by decide)⟩

theorem EncodesToRow.srli (rd : RegIdx) (rs1 : RegIdx) (shamt : BitVec 5) : EncodesToRow.Statement (.srli rd rs1 shamt) :=
  ⟨_, rfl, (congrArg (· &&& 0xFE00707F#32) (packI_shamt _ _ _ _ _ _)).trans ((packR_and_mask _ _ _ _ _ _).trans (by decide))⟩

theorem EncodesToRow.lw (rd : RegIdx) (rs1 : RegIdx) (imm : BitVec 12) : EncodesToRow.Statement (.lw rd rs1 imm) :=
  ⟨_, rfl, (packI_and_mask _ _ _ _ _).trans (by decide)⟩

theorem EncodesToRow.jalr (rd : RegIdx) (rs1 : RegIdx) (imm : BitVec 12) : EncodesToRow.Statement (.jalr rd rs1 imm) :=
  ⟨_, rfl, (packI_and_mask _ _ _ _ _).trans (by decide)⟩

theorem EncodesToRow.sw (rs2 : RegIdx) (rs1 : RegIdx) (imm : BitVec 12) : EncodesToRow.Statement (.sw rs2 rs1 imm) :=
  ⟨_, rfl, (packS_and_mask _ _ _ _ _).trans (by decide)⟩

theorem EncodesToRow.beq (rs1 : RegIdx) (rs2 : RegIdx) (off : BitVec 13) : EncodesToRow.Statement (.beq rs1 rs2 off) :=
  ⟨_, rfl, (packB_and_mask _ _ _ _ _).trans (by decide)⟩

theorem EncodesToRow.bne (rs1 : RegIdx) (rs2 : RegIdx) (off : BitVec 13) : EncodesToRow.Statement (.bne rs1 rs2 off) :=
  ⟨_, rfl, (packB_and_mask _ _ _ _ _).trans (by decide)⟩

theorem EncodesToRow.lui (rd : RegIdx) (val : BitVec 32) : EncodesToRow.Statement (.lui rd val) :=
  ⟨_, rfl, (packU_and_mask _ _ _).trans (by decide)⟩

theorem EncodesToRow.auipc (rd : RegIdx) (val : BitVec 32) : EncodesToRow.Statement (.auipc rd val) :=
  ⟨_, rfl, (packU_and_mask _ _ _).trans (by decide)⟩

theorem EncodesToRow.jal (rd : RegIdx) (off : BitVec 21) : EncodesToRow.Statement (.jal rd off) :=
  ⟨_, rfl, (packJ_and_mask _ _ _).trans (by decide)⟩

theorem EncodesToRow.rst : EncodesToRow.Statement .rst :=
  ⟨_, rfl, by decide⟩

theorem EncodesToRow.halt : EncodesToRow.Statement .halt :=
  ⟨_, rfl, by decide⟩

end Sys2Proof.Laws
end

