-- ==== Sys2Proof/Laws/Step.lean ====
section
/-!
SUPPORT. What an instruction can do and what a step can do, each said once; invariants are derived from these.
-/

namespace Sys2Proof.Machine

/-- The ways an instruction completes. -/
inductive Completes (i : Instr) (s t : State) : Prop where
  /-- It writes its `rd` and sets the pc. -/
  | register (rd : RegIdx) (v npc : Word) : destOf i = some rd → storeAddrOf i s = none → i ≠ .halt → i ≠ .rst →
      t = (s.setReg rd v).complete npc → Completes i s t
  /-- It stores one word and takes the default next pc. -/
  | memory (addr v : Word) : destOf i = none → storeAddrOf i s = some addr → i ≠ .halt → i ≠ .rst →
      t = (s.store addr v).complete s.nextPc → Completes i s t
  /-- It only sets the pc. -/
  | branch (npc : Word) : destOf i = none → storeAddrOf i s = none → i ≠ .halt → i ≠ .rst →
      t = s.complete npc → Completes i s t
  /-- It is `rst`. -/
  | unknown : i = .rst → t = s.unknownWord Config.rstWord → Completes i s t
  /-- It is `halt`. -/
  | halted : i = .halt → t = s.endRun .halt → Completes i s t

/-- The inversion of `exec`. -/
theorem exec_completes {i : Instr} {s t : State} (h : exec i s = .next t) : Completes i s t := by
  cases i with
  | add rd rs1 rs2 => cases h; exact .register rd _ _ rfl rfl nofun nofun rfl
  | sub rd rs1 rs2 => cases h; exact .register rd _ _ rfl rfl nofun nofun rfl
  | slt rd rs1 rs2 => cases h; exact .register rd _ _ rfl rfl nofun nofun rfl
  | xor rd rs1 rs2 => cases h; exact .register rd _ _ rfl rfl nofun nofun rfl
  | srl rd rs1 rs2 => cases h; exact .register rd _ _ rfl rfl nofun nofun rfl
  | or rd rs1 rs2 => cases h; exact .register rd _ _ rfl rfl nofun nofun rfl
  | and rd rs1 rs2 => cases h; exact .register rd _ _ rfl rfl nofun nofun rfl
  | addi rd rs1 imm => cases h; exact .register rd _ _ rfl rfl nofun nofun rfl
  | slli rd rs1 shamt => cases h; exact .register rd _ _ rfl rfl nofun nofun rfl
  | sltiu rd rs1 imm => cases h; exact .register rd _ _ rfl rfl nofun nofun rfl
  | srli rd rs1 shamt => cases h; exact .register rd _ _ rfl rfl nofun nofun rfl
  | lw rd rs1 imm => cases h; exact .register rd _ _ rfl rfl nofun nofun rfl
  | jalr rd rs1 imm => cases h; exact .register rd _ _ rfl rfl nofun nofun rfl
  | sw rs2 rs1 imm => cases h; exact .memory _ _ rfl rfl nofun nofun rfl
  | beq rs1 rs2 off => cases h; exact .branch _ rfl rfl nofun nofun rfl
  | bne rs1 rs2 off => cases h; exact .branch _ rfl rfl nofun nofun rfl
  | lui rd val => cases h; exact .register rd _ _ rfl rfl nofun nofun rfl
  | auipc rd val => cases h; exact .register rd _ _ rfl rfl nofun nofun rfl
  | jal rd off => cases h; exact .register rd _ _ rfl rfl nofun nofun rfl
  | rst => cases h; exact .unknown rfl rfl
  | halt => cases h; exact .halted rfl rfl

/-- A fetch delivers a word exactly from a multiple of 4 inside the program (20_memory.md R52). -/
theorem fetch_eq_word {s : State} {w : Word} :
    s.fetch = .word w ↔ s.pc.toNat % 4 = 0 ∧ s.imem[s.pc.toNat / 4]? = some w := by
  unfold State.fetch
  constructor
  · intro h
    split at h
    · cases h
    split at h
    · cases h
    · next h1 h2 =>
      have hl : s.pc.toNat / 4 < s.imem.length := by omega
      cases h
      exact ⟨by omega, by simp [List.getD_eq_getElem?_getD, List.getElem?_eq_getElem hl]⟩
  · rintro ⟨h4, h⟩
    obtain ⟨hl, -⟩ := List.getElem?_eq_some_iff.mp h
    rw [if_neg (by omega), if_neg (by omega)]
    simp [List.getD_eq_getElem?_getD, h]

theorem fetch_eq_misaligned {s : State} :
    s.fetch = .misaligned ↔ s.pc.toNat < 4 * s.imem.length ∧ s.pc.toNat % 4 ≠ 0 := by
  unfold State.fetch
  constructor
  · intro h
    split at h
    · cases h
    · split at h
      · exact ⟨by omega, by assumption⟩
      · cases h
  · rintro ⟨h1, h2⟩
    rw [if_neg (by omega), if_pos h2]

/-- The ways a step ends in a next state. -/
inductive StepCases (s t : State) : Prop where
  /-- ENC moves. -/
  | encoder : s.enc.running = true → t = encStep s → StepCases s t
  /-- No run is in progress: nothing changes. -/
  | rest : s.enc.running = false → s.exeRunning = false → t = s → StepCases s t
  /-- The run ends by `OffEnd`. -/
  | offEnd : s.enc.running = false → s.exeRunning = true → t = s.endRun .offEnd → StepCases s t
  /-- A decoded instruction runs. -/
  | instr (w : Word) (i : Instr) : s.enc.running = false → s.exeRunning = true → s.imem[s.pc.toNat / 4]? = some w →
      decode w = .ok i → exec i s = .next t → StepCases s t
  /-- An unknown word runs. -/
  | unknown (w : Word) : s.enc.running = false → s.exeRunning = true → t = s.unknownWord w → StepCases s t

/-- The inversion of `step` for a next state. -/
theorem step_next {s t : State} (h : step s = .next t) : StepCases s t := by
  unfold step at h
  split at h
  · next hr => cases h; exact .encoder hr rfl
  next hr =>
  have hr : s.enc.running = false := by simpa using hr
  unfold exeStep at h
  split at h
  rotate_left
  · next hs => cases h; exact .rest hr (by simpa using hs) rfl
  next hs =>
  split at h
  · cases h; exact .offEnd hr hs rfl
  · cases h
  next w hf =>
  unfold runWord at h
  split at h
  · next i hd => exact .instr w i hr hs (fetch_eq_word.mp hf).2 hd h
  · cases h; exact .unknown w hr hs rfl

/-- The inversion of `step` for the misaligned pc. -/
theorem step_misaligned {s t : State} (h : step s = .fault (.misalignedPc t)) :
    s.enc.running = false ∧ s.exeRunning = true ∧ s.pc.toNat < 4 * s.imem.length ∧ s.pc.toNat % 4 ≠ 0 ∧
      t = s.endRun .misalignedPc := by
  unfold step at h
  split at h
  · cases h
  next hr =>
  unfold exeStep at h
  split at h
  rotate_left
  · cases h
  next hs =>
  split at h
  · cases h
  · next hf =>
    cases h
    exact ⟨by simpa using hr, hs, (fetch_eq_misaligned.mp hf).1, (fetch_eq_misaligned.mp hf).2, rfl⟩
  · next w hf =>
    unfold runWord at h
    split at h
    · next i _ => cases i <;> cases h
    · cases h

end Sys2Proof.Machine
end

