-- ==== Sys2Proof/Tests/Slice0.lean ====
section
/-!
SUPPORT. The model's own tests. Expected results are the spec's vectors (95_test_vectors.md, named in each comment) or
words written out from 30_encoding.md. The witnesses show that the hypotheses of each statement can be met together.
-/

namespace Sys2Proof.Tests

open Sys2Proof.Machine

/-! ### Helpers -/

/-- Registers all 0 but those listed. -/
def regsOf (l : List (RegIdx × Word)) : Vector Word 32 :=
  l.foldl (fun v e => writeRegs v e.1 e.2) (Vector.replicate 32 (0 : Word))

/-- A machine at `pc` with these registers and data cells, about to run this program. -/
def at_ (pc : Word) (imem : List Word) (regs : List (RegIdx × Word)) (mem : Memory) : State :=
  { State.resetWith 0#32 with pc := pc, imem := imem, regs := regsOf regs, mem := mem, launched := true }

/-- One step from pc 0 of the program of one word. -/
def one (w : Word) (regs : List (RegIdx × Word)) : State := at_ 0#32 [w] regs []

/-- Register `r` and the pc after one step. -/
def regPc (s : State) (r : RegIdx) : Option (Word × Word) :=
  match step s with
  | .next t => some (t.reg r, t.pc)
  | .fault _ => none
  | .refused _ => none

/-- Data cell `a` and the pc after one step. -/
def cellPc (s : State) (a : Word) : Option (Word × Word) :=
  match step s with
  | .next t => some (t.load a, t.pc)
  | .fault _ => none
  | .refused _ => none

/-- The stop reason, the diagnostics and the number of snapshots after one step. -/
def outcome (s : State) : Option (Option StopReason × List DiagRecord × Nat) :=
  match step s with
  | .next t => some (t.stop, t.diag, t.trace.length)
  | .fault _ => none
  | .refused _ => none

/-! ### Ill-formed instructions are refused -/

theorem test_odd_beq_is_ill_formed : (Instr.beq 0 0 5#13).wellFormed = false := by decide
theorem test_odd_bne_is_ill_formed : (Instr.bne 1 2 0x1FFF#13).wellFormed = false := by decide
theorem test_odd_jal_is_ill_formed : (Instr.jal 1 1#21).wellFormed = false := by decide
theorem test_low_bits_lui_is_ill_formed : (Instr.lui 5 0x12345678#32).wellFormed = false := by decide
theorem test_low_bits_auipc_is_ill_formed : (Instr.auipc 5 1#32).wellFormed = false := by decide

/-! ### Decoding, words written field by field (30_encoding.md R72 to R77, R86; part B) -/

theorem test_decode_add : decode 0b0000000_00010_00001_000_00011_0110011#32 = .ok (.add 3 1 2) := by decide
theorem test_decode_sub : decode 0b0100000_00111_00000_000_11110_0110011#32 = .ok (.sub 30 0 7) := by decide
theorem test_decode_slt : decode 0b0000000_00011_00010_010_00001_0110011#32 = .ok (.slt 1 2 3) := by decide
theorem test_decode_xor : decode 0b0000000_00011_00010_100_00001_0110011#32 = .ok (.xor 1 2 3) := by decide
theorem test_decode_srl : decode 0b0000000_11111_11111_101_11111_0110011#32 = .ok (.srl 31 31 31) := by decide
theorem test_decode_or : decode 0b0000000_00011_00010_110_00001_0110011#32 = .ok (.or 1 2 3) := by decide
theorem test_decode_and : decode 0b0000000_00011_00010_111_00001_0110011#32 = .ok (.and 1 2 3) := by decide
theorem test_decode_addi : decode 0b100000000000_11111_000_11111_0010011#32 = .ok (.addi 31 31 0x800#12) := by decide
theorem test_decode_slli : decode 0b0000000_00100_00110_001_00111_0010011#32 = .ok (.slli 7 6 4#5) := by decide
theorem test_decode_sltiu : decode 0b000011110001_00111_011_11100_0010011#32 = .ok (.sltiu 28 7 241#12) := by decide
theorem test_decode_srli : decode 0b0000000_11100_00101_101_00110_0010011#32 = .ok (.srli 6 5 28#5) := by decide
theorem test_decode_lw : decode 0b111111111100_00010_010_01010_0000011#32 = .ok (.lw 10 2 0xFFC#12) := by decide
theorem test_decode_jalr : decode 0b111111111100_00010_000_00001_1100111#32 = .ok (.jalr 1 2 0xFFC#12) := by decide
theorem test_decode_sw : decode 0b1111111_00011_00010_010_11100_0100011#32 = .ok (.sw 3 2 0xFFC#12) := by decide
theorem test_decode_beq : decode 0b1111111_00110_00101_000_11001_1100011#32 = .ok (.beq 5 6 0x1FF8#13) := by decide
theorem test_decode_beq_bit11 : decode 0b0000000_00000_00000_000_00001_1100011#32 = .ok (.beq 0 0 2048#13) := by decide
theorem test_decode_bne : decode 0b1111111_00000_00101_001_11001_1100011#32 = .ok (.bne 5 0 0x1FF8#13) := by decide
theorem test_decode_lui : decode 0b00010010001101000101_01000_0110111#32 = .ok (.lui 8 0x12345000#32) := by decide
theorem test_decode_auipc : decode 0b00000000000000000001_01001_0010111#32 = .ok (.auipc 9 4096#32) := by decide
theorem test_decode_jal_bit11 : decode 0b00000000000100000000_00001_1101111#32 = .ok (.jal 1 2048#21) := by decide
theorem test_decode_jal_bit12 : decode 0b00000000000000000001_00001_1101111#32 = .ok (.jal 1 4096#21) := by decide
theorem test_decode_rst : decode 0x00000000#32 = .ok .rst := by decide
theorem test_decode_halt : decode 0xFFFFFFFF#32 = .ok .halt := by decide

/-- VX1: a word of each kind the decoder rejects. -/
theorem test_unknown_words :
    decode 0x00000073#32 = .error (.unknownOpcode 0b1110011#7) ∧
    decode 0x00001003#32 = .error (.unknownFunct3 0b0000011#7 0b001#3) ∧
    decode 0x40005033#32 = .error (.unknownFunct7 0b0110011#7 0b101#3 0b0100000#7) ∧
    decode 0x40005013#32 = .error (.unknownFunct7 0b0010011#7 0b101#3 0b0100000#7) ∧
    decode 0x7FFFFFFF#32 = .error (.unknownOpcode 0b1111111#7) := by decide

/-- Fewer than four bytes hold no instruction; five hold one and a rest. -/
theorem test_decode_bytes :
    decodeBytes [0x93#8, 0x00#8, 0x50#8] = .error .truncated ∧
    decodeBytes [0x93#8, 0x00#8, 0x50#8, 0x00#8, 0x7F#8] = .ok (.addi 1 0 5#12, [0x7F#8]) := ⟨rfl, rfl⟩

theorem test_decode_table_word : decodeTableWord 32 0x40000033 = some (.sub 0 0 0) ∧ decodeTableWord 32 1 = none :=
  ⟨rfl, rfl⟩

/-! ### Encoding (part B) -/

theorem test_encode_r_and_i : encode (.sub 30 0 7) = 0x40700F33#32 ∧ encode (.srli 31 31 31#5) = 0x01FFDF93#32 := by decide
theorem test_encode_s_and_b : encode (.sw 31 31 2047#12) = 0x7FFFAFA3#32 ∧ encode (.bne 31 31 0x1000#13) = 0x81FF9063#32 := by
  decide
theorem test_encode_u_and_j : encode (.auipc 31 0xFFFFF000#32) = 0xFFFFFF97#32 ∧ encode (.jal 1 0xFFFFE#21) = 0x7FFFF0EF#32 := by
  decide
/-- VE4: an odd offset loses bit 0. -/
theorem test_encode_drops_odd_bit : encode (.beq 0 0 5#13) = 0x00000263#32 := by decide

/-! ### One step (part B) -/

/-- VR1. -/
theorem test_add_signed_overflow : regPc (one 0x002081B3#32 [(1, 0x7FFFFFFF#32), (2, 1#32)]) 3 = some (0x80000000#32, 4#32) := by decide
/-- VR5. -/
theorem test_sub_borrows : regPc (one 0x402081B3#32 [(1, 0#32), (2, 1#32)]) 3 = some (0xFFFFFFFF#32, 4#32) := by decide
/-- VR8. -/
theorem test_and : regPc (one 0x0020F1B3#32 [(1, 0xF0F0F0F0#32), (2, 0xFF00FF00#32)]) 3 = some (0xF000F000#32, 4#32) := by decide
/-- VR9. -/
theorem test_or : regPc (one 0x0020E1B3#32 [(1, 0xF0F0F0F0#32), (2, 0xFF00FF00#32)]) 3 = some (0xFFF0FFF0#32, 4#32) := by decide
/-- VR10. -/
theorem test_xor : regPc (one 0x0020C1B3#32 [(1, 0xF0F0F0F0#32), (2, 0xFF00FF00#32)]) 3 = some (0x0FF00FF0#32, 4#32) := by decide
/-- VR13. -/
theorem test_slt_signed : regPc (one 0x0020A1B3#32 [(1, 1#32), (2, 0xFFFFFFFF#32)]) 3 = some (0#32, 4#32) := by decide
/-- VR14. -/
theorem test_slt_extremes : regPc (one 0x0020A1B3#32 [(1, 0x80000000#32), (2, 0x7FFFFFFF#32)]) 3 = some (1#32, 4#32) := by decide
/-- VR17. -/
theorem test_srl_amount_32 : regPc (one 0x0020D1B3#32 [(1, 0x80000000#32), (2, 32#32)]) 3 = some (0x80000000#32, 4#32) := by decide
/-- VR18. -/
theorem test_srl_low_five_bits : regPc (one 0x0020D1B3#32 [(1, 0xFFFFFFFF#32), (2, 0xFFFFFFE4#32)]) 3 = some (0x0FFFFFFF#32, 4#32) := by decide
/-- VI1. -/
theorem test_addi_minus_one : regPc (one 0xFFF08093#32 [(1, 0#32)]) 1 = some (0xFFFFFFFF#32, 4#32) := by decide
/-- VI3. -/
theorem test_addi_lower_bound : regPc (one 0x80010093#32 [(2, 0x800#32)]) 1 = some (0#32, 4#32) := by decide
/-- VI7. -/
theorem test_slli_top_bits_lost : regPc (one 0x00411093#32 [(2, 0xF000000F#32)]) 1 = some (0xF0#32, 4#32) := by decide
/-- VI9. -/
theorem test_srli_no_sign_fill : regPc (one 0x01C15093#32 [(2, 0xFFFFFFFF#32)]) 1 = some (0xF#32, 4#32) := by decide
/-- VI15. -/
theorem test_sltiu_sign_extends : regPc (one 0xFFF13093#32 [(2, 0xFFFFFFFE#32)]) 1 = some (1#32, 4#32) := by decide
/-- VI16. -/
theorem test_sltiu_strict : regPc (one 0xFFF13093#32 [(2, 0xFFFFFFFF#32)]) 1 = some (0#32, 4#32) := by decide
/-- VI21: the target comes from the old value of the register it links. -/
theorem test_jalr_rd_is_rs1 : regPc (at_ 4#32 [0#32, 0x008282E7#32] [(5, 0x10#32)] []) 5 = some (8#32, 0x18#32) := by decide
/-- VI23. -/
theorem test_jalr_clears_bit_0 : regPc (one 0xFFF100E7#32 [(2, 0x13#32)]) 1 = some (4#32, 0x12#32) := by decide
/-- VL3. -/
theorem test_lw_address_wraps : regPc (at_ 0#32 [0xFFC12283#32] [] [(0xFFFFFFFC, 0x11#32)]) 5 = some (0x11#32, 4#32) := by decide
/-- VL5. -/
theorem test_lw_rd_is_rs1 : regPc (at_ 0#32 [0x00012103#32] [(2, 0x40#32)] [(0x40, 0x80#32)]) 2 = some (0x80#32, 4#32) := by decide
/-- VS2. -/
theorem test_sw_negative_offset : cellPc (one 0xFE312E23#32 [(2, 0#32), (3, 0xAB#32)]) 0xFFFFFFFC#32 = some (0xAB#32, 4#32) := by decide
/-- VS3: storing 0 over a cell. -/
theorem test_sw_zero : cellPc (at_ 0#32 [0x0000A423#32] [(1, 0x20#32)] [(0x28, 0x55#32)]) 0x28#32 = some (0#32, 4#32) := by decide
/-- VB1. -/
theorem test_beq_taken : regPc (at_ 4#32 [0#32, 0x00208463#32] [(1, 5#32), (2, 5#32)] []) 1 = some (5#32, 0xC#32) := by decide
/-- VB6. -/
theorem test_beq_wraps_below_zero : regPc (at_ 4#32 [0#32, 0xFE000CE3#32] [] []) 1 = some (0#32, 0xFFFFFFFC#32) := by decide
/-- VB3. -/
theorem test_bne_taken : regPc (at_ 4#32 [0#32, 0x00209463#32] [(1, 5#32), (2, 6#32)] []) 1 = some (5#32, 0xC#32) := by decide
/-- VB4. -/
theorem test_bne_not_taken : regPc (at_ 4#32 [0#32, 0x00209463#32] [(1, 5#32), (2, 5#32)] []) 1 = some (5#32, 8#32) := by decide
/-- VU2. -/
theorem test_lui : regPc (one 0x123452B7#32 []) 5 = some (0x12345000#32, 4#32) := by decide
/-- VU5. -/
theorem test_auipc_negative : regPc (at_ 8#32 [0#32, 0#32, 0xFFFFF297#32] [] []) 5 = some (0xFFFFF008#32, 0xC#32) := by decide
/-- VJ1. -/
theorem test_jal : regPc (at_ 4#32 [0#32, 0x008000EF#32] [] []) 1 = some (8#32, 0xC#32) := by decide
/-- VJ3. -/
theorem test_jal_wraps : regPc (one 0xFFDFF0EF#32 []) 1 = some (4#32, 0xFFFFFFFC#32) := by decide
/-- VR3. -/
theorem test_add_to_x0 : regPc (one 0x00208033#32 [(1, 5#32), (2, 6#32)]) 0 = some (0#32, 4#32) := by decide
/-- VX1. -/
theorem test_unknown_word : outcome (one 0x00000073#32 [(1, 1#32)]) = some (none, [⟨0#32, 0x00000073#32⟩], 1) := by decide
/-- VX2. -/
theorem test_rst : outcome (one 0#32 []) = some (none, [⟨0#32, 0#32⟩], 1) ∧ regPc (one 0#32 [(1, 1#32)]) 1 = some (1#32, 4#32) := by decide
/-- VX3: no snapshot, the pc stays. -/
theorem test_halt : outcome (one 0xFFFFFFFF#32 []) = some (some .halt, [], 0) ∧ regPc (one 0xFFFFFFFF#32 [(1, 7#32)]) 1 = some (7#32, 0#32) := by decide
/-- R169: after the end of a run nothing changes. -/
theorem test_ended_run_stays : step ((one 0xFFFFFFFF#32 []).endRun .halt) = .next ((one 0xFFFFFFFF#32 []).endRun .halt) := rfl
/-- VX4. -/
theorem test_empty_program : outcome (at_ 0#32 [] [] []) = some (some .offEnd, [], 0) := by decide

/-! ### ENC (part B and the source's example) -/

/-- The characters of a line. -/
def line (s : String) : Text := s.toList

/-- SRC-1. -/
theorem test_encode_out_of_range :
    assemble [line "addi x1, x0, 2048"] = .error ⟨.immediateOutOfRange 2048 (-2048) 2047, 1⟩ := rfl
/-- SRC-3, P1. -/
theorem test_encode_p1 :
    assemble [line "main:", line "    addi x1, x0, 5", line "    addi x2, x0, 3", line "    add  x3, x1, x2",
      line "    sw   x3, 0(x0)", line "    halt"] =
    .ok [0x00500093#32, 0x00300113#32, 0x002081B3#32, 0x00302023#32, 0xFFFFFFFF#32] := rfl
/-- SRC-2. -/
theorem test_encode_backward_branch :
    assemble [line "loop:", line "addi x1, x1, 1", line "addi x2, x2, 1", line "beq t0, t1, loop"] =
    .ok [0x00108093#32, 0x00110113#32, 0xFE628CE3#32] := rfl
/-- VA1. -/
theorem test_encode_whitespace : assemble [line "  addi  x1 ,\tx0 , +0X7fF  # c\x0d"] = .ok [0x7FF00093#32] := rfl
/-- VA3. -/
theorem test_encode_memory_labels :
    assemble [line "buf: lw x5, buf(x0)", line "v: sw x5, v(zero)", line "halt"] =
    .ok [0x00002283#32, 0x00502223#32, 0xFFFFFFFF#32] := rfl
/-- VF9. -/
theorem test_duplicate_label : assemble [line "a:", line "a: halt"] = .error ⟨.duplicateLabel ['a'], 2⟩ := rfl
/-- VF21. -/
theorem test_label_in_literal_position :
    assemble [line "L: addi x1,x0,L"] = .error ⟨.undefinedLabel ['L'], 1⟩ := rfl
/-- VF26. -/
theorem test_second_colon : assemble [line "x:y: halt"] = .error ⟨.unknownInstruction ['y', ':'], 1⟩ := rfl
/-- Log entry 18: the model's choice where the first token after the label is a mnemonic. -/
theorem test_second_colon_after_mnemonic :
    assemble [line "a: halt b:"] = .error ⟨.malformedOperand ['b', ':'], 1⟩ := rfl
/-- VF27. -/
theorem test_register_before_range :
    assemble [line "sw x3, 5000(foo)"] = .error ⟨.unknownRegister ['f', 'o', 'o'], 1⟩ := rfl
/-- VF32. -/
theorem test_pass_1_errors_first :
    assemble [line "mul x1,x2", line "x: halt", line "x: halt"] = .error ⟨.duplicateLabel ['x'], 3⟩ := rfl

/-! ### The text formats (P1) -/

theorem test_machine_code_line : machineCodeLine 0x00500093#32 = line "00000000010100000000000010010011\n" := rfl
theorem test_dump_line : dumpLine ⟨0#32, 8#32⟩ = line "0x00000000:0b00000000000000000000000000001000\n" := rfl

/-! ### Witnesses: the hypotheses of each statement hold together -/

/-- The word `0x00A12023`, `sw x10, 0(x2)`, with `x2 = 0xFFFFFFFC`: the last cell of the address space. -/
def storing : State := at_ 0#32 [0x00A12023#32, 0x00012583#32] [(2, 0xFFFFFFFC#32), (10, 7#32)] []

/-- `storing` is sound. -/
theorem storing_sound : Sound storing where
  regZero := rfl
  memCanonical := by unfold MemCanonical; decide
  pcEven := by unfold PcEven; decide
  programFits := by unfold ProgramFits; decide
  dumpIffEnded := rfl
  traceZero := nofun
  encoderOk := ⟨⟨List.nodup_nil, nofun⟩, ⟨rfl, nofun⟩, fun _ => rfl, fun h => absurd rfl h, by decide⟩
  oneAgent := nofun

/-- PackersOfBUJPlaceFields: `1 ≤ k` at the lowest stored bit. -/
theorem witness_stored_bit : 1 ≤ 1 ∧ (0x1FFE#13).getLsbD 1 = true := by decide

/-- DecodeOfEncodeIsIdentity, PlacedWordRunsNext: operands at the ends of their ranges. -/
theorem witness_wellFormed :
    (Instr.beq 31 0 0x1000#13).wellFormed = true ∧ (Instr.bne 0 31 0xFFE#13).wellFormed = true ∧
    (Instr.jal 31 0x100000#21).wellFormed = true ∧ (Instr.lui 0 0xFFFFF000#32).wellFormed = true ∧
    (Instr.addi 31 31 0x800#12).wellFormed = true ∧ (Instr.slli 0 0 31#5).wellFormed = true := by decide

/-- EncodeOfDecodeIsIdentity, and both directions of DecodeAgreesWithOpcodeTable. -/
theorem witness_decode_and_row :
    decode 0xFE000FB3#32 = .error (.unknownFunct7 opReg 0#3 0b1111111#7) ∧ decode 0x01FFFFB3#32 = .ok (.and 31 31 31) ∧
    (⟨.and, 0xFE00707F, 0x00007033⟩ : OpcodeRow) ∈ opcodeTable ∧
    0x01FFFFB3#32 &&& 0xFE00707F#32 = 0x00007033#32 := by decide

/-- OpcodeRowsAreDisjoint: a row of the table and a word it matches. -/
theorem witness_row : (⟨.halt, 0xFFFFFFFF, 0xFFFFFFFF⟩ : OpcodeRow) ∈ opcodeTable ∧
    0xFFFFFFFF#32 &&& 0xFFFFFFFF#32 = 0xFFFFFFFF#32 := by decide

/-- ExecutorImmediatesAreSlices: a word of each clause, the immediate at an end of its range. -/
theorem witness_immediates :
    decode 0x80000093#32 = .ok (.addi 1 0 0x800#12) ∧ decode 0x7FFF8FE7#32 = .ok (.jalr 31 31 0x7FF#12) ∧
    decode 0x7FFFAF83#32 = .ok (.lw 31 31 0x7FF#12) ∧ decode 0x80002023#32 = .ok (.sw 0 0 0x800#12) ∧
    decode 0x7E000FE3#32 = .ok (.beq 0 0 0xFFE#13) ∧ decode 0x81FF9063#32 = .ok (.bne 31 31 0x1000#13) ∧
    decode 0xFFFFF2B7#32 = .ok (.lui 5 0xFFFFF000#32) ∧ decode 0x00000297#32 = .ok (.auipc 5 0#32) ∧
    decode 0x7FFFF0EF#32 = .ok (.jal 1 0xFFFFE#21) ∧ decode 0x800000EF#32 = .ok (.jal 1 0x100000#21) ∧
    decode 0x01F11093#32 = .ok (.slli 1 2 31#5) ∧ decode 0x01FFDF93#32 = .ok (.srli 31 31 31#5) ∧
    decode 0x80013093#32 = .ok (.sltiu 1 2 0x800#12) := by decide

/-- SwStoresExactCell, MemoryPrimitives, CanonicalMemoryIsExtensional: canonical memories, the empty one and one at the last
address. -/
theorem witness_canonical :
    MemCanonical (State.resetWith 0#32) ∧ (State.resetWith 0#32).mem = [] ∧
    Memory.wf [(0, 1#32), (4294967295, 0xFFFFFFFF#32)] = true ∧ Memory.wf [(4294967296, 1#32)] = false ∧
    Memory.wf [(0, 0#32)] = false := by unfold MemCanonical; decide

/-- StepRunsTheDecodedInstruction: the last word of a program. -/
theorem witness_step_decoded :
    ∃ s : State, s.enc.running = false ∧ s.exeRunning = true ∧ s.pc.toNat % 4 = 0 ∧
      s.imem[s.pc.toNat / 4]? = some 0xFFFFFFFF#32 ∧ decode 0xFFFFFFFF#32 = .ok .halt :=
  ⟨at_ 4#32 [0#32, 0xFFFFFFFF#32] [] [], by decide⟩

/-- StepDiagnosesUnknownWord. -/
theorem witness_step_unknown :
    ∃ s : State, s.enc.running = false ∧ s.exeRunning = true ∧ s.pc.toNat % 4 = 0 ∧
      s.imem[s.pc.toNat / 4]? = some 0x7FFFFFFF#32 ∧ decode 0x7FFFFFFF#32 = .error (.unknownOpcode 0b1111111#7) :=
  ⟨at_ 0#32 [0x7FFFFFFF#32] [] [], by decide⟩

/-- PcBeyondProgramEndsTheRun: the first address past the program, and a misaligned one past it. -/
theorem witness_off_end :
    ∃ s t : State, s.enc.running = false ∧ s.exeRunning = true ∧ 4 * s.imem.length = s.pc.toNat ∧
      t.enc.running = false ∧ t.exeRunning = true ∧ 4 * t.imem.length ≤ t.pc.toNat ∧ t.pc.toNat % 4 = 2 :=
  ⟨at_ 4#32 [0x13#32] [] [], at_ 6#32 [0x13#32] [] [], by decide⟩

/-- MisalignedPcFaults, MisalignedPcIsTwoModFour: the last even address of the program. -/
theorem witness_misaligned :
    ∃ s : State, PcEven s ∧ s.enc.running = false ∧ s.exeRunning = true ∧ s.pc.toNat < 4 * s.imem.length ∧ s.pc.toNat % 4 ≠ 0 ∧
      ∃ t, step s = .fault (.misalignedPc t) :=
  ⟨at_ 2#32 [0x13#32] [] [], by unfold PcEven; decide, by decide, by decide, by decide, by decide, _, rfl⟩

/-- EndedRunTakesNoStep: after the end, and before the first launch. -/
theorem witness_ended : (∃ s : State, s.enc.running = false ∧ s.stop = some .halt) ∧ (State.resetWith 0#32).atRest = true :=
  ⟨⟨(at_ 0#32 [] [] []).endRun .halt, rfl, rfl⟩, rfl⟩

/-- InstructionsWriteOnlyRd, the clauses of InstructionsStoreOnlyAtTheirAddress, InstructionsKeepTheSurround,
AddressSpacesAreDisjoint: an instruction that stores and one that does not, both completing. -/
theorem witness_exec :
    (∃ t, exec (.sw 10 2 0#12) storing = .next t ∧ storeAddrOf (.sw 10 2 0#12) storing = some 0xFFFFFFFC#32 ∧
      destOf (.sw 10 2 0#12) ≠ some 31) ∧
    (∃ t, exec (.add 31 2 10) storing = .next t ∧ storeAddrOf (.add 31 2 10) storing = none ∧
      destOf (.add 31 2 10) ≠ some 30) := ⟨⟨_, rfl, by decide, by decide⟩, ⟨_, rfl, rfl, by decide⟩⟩

/-- AddressSpacesAreDisjoint, third clause: two states alike in pc and program and different in memory. -/
theorem witness_same_fetch :
    ∃ s t : State, t.pc = s.pc ∧ t.imem = s.imem ∧ t.mem ≠ s.mem :=
  ⟨storing, storing.store 8#32 1#32, rfl, rfl, by decide⟩

/-- OnlyJumpsLeaveTheSequence: an instruction of each kind that leaves it. -/
theorem witness_leaves_sequence :
    ∃ t1 t2 t3 t4 t5, exec (.beq 0 0 0#13) storing = .next t1 ∧ t1.pc ≠ BitVec.ofNat 32 (storing.pc.toNat + 4) ∧
      exec (.bne 0 2 0xFF8#13) storing = .next t2 ∧ t2.pc ≠ BitVec.ofNat 32 (storing.pc.toNat + 4) ∧
      exec (.jal 0 0#21) storing = .next t3 ∧ t3.pc ≠ BitVec.ofNat 32 (storing.pc.toNat + 4) ∧
      exec (.jalr 0 2 0#12) storing = .next t4 ∧ t4.pc ≠ BitVec.ofNat 32 (storing.pc.toNat + 4) ∧
      exec .halt storing = .next t5 ∧ t5.pc ≠ BitVec.ofNat 32 (storing.pc.toNat + 4) :=
  ⟨_, _, _, _, _, rfl, by decide, rfl, by decide, rfl, by decide, rfl, by decide, rfl, by decide⟩

/-- ProgramIsImmutable, StepKeepsMemoryCanonical, StepKeepsPcEven, StepKeepsSound, RegisterZeroIsHardwired and the third
clause of MemoryPrimitives: a step from a sound state that changes memory. -/
theorem witness_sound_step : ∃ t, Sound storing ∧ step storing = .next t ∧ t.mem ≠ storing.mem :=
  ⟨_, storing_sound, rfl, by decide⟩

/-- RegisterZeroIsHardwired: an instruction whose `rd` is 0. -/
theorem witness_dest_zero : destOf (.jal 0 8#21) = some 0 ∧ ∃ t, exec (.jal 0 8#21) storing = .next t := ⟨rfl, _, rfl⟩

/-- A machine at reset on which the host has started ENC. -/
def encoding : State := (State.resetWith 0#32).startEncoder [['h', 'a', 'l', 't']]

/-- AgentsDoNotTouchEachOther, EncoderRunIsAssemble: a step of either agent, both in the middle of a run, and a machine at
rest. -/
theorem witness_agents :
    (∃ t, step storing = .next t ∧ storing.enc.running = false ∧ storing.launched = true ∧ storing.stop = none) ∧
    (∃ t, step encoding = .next t ∧ encoding.enc.running = true) ∧
    encoding.enc = Encoder.start [['h', 'a', 'l', 't']] ∧ (State.resetWith 0#32).atRest = true :=
  ⟨⟨_, rfl, rfl, rfl, rfl⟩, ⟨_, rfl, by decide⟩, by decide, by decide⟩

/-- R5: the host can launch nothing while EXE runs, and can once the run has ended. -/
theorem test_host_moves_between_runs :
    storing.launch (InitState.reset 0#32) [] = storing ∧
    ((storing.endRun .halt).launch (InitState.reset 0#32) []).imem = [] := ⟨by decide, rfl⟩

/-- R5, R264, D31: a launched run of no word is in progress until its `OffEnd`, which emits the dump; the host has no move
before. -/
theorem test_empty_run_is_a_run :
    let s := (State.resetWith 0#32).launch (InitState.reset 0#32) []
    s.exeRunning = true ∧ s.startEncoder [['h', 'a', 'l', 't']] = s ∧ s.launch (InitState.reset 0#32) [0#32] = s ∧
      step s = .next (s.endRun .offEnd) ∧ (s.endRun .offEnd).atRest = true := ⟨rfl, rfl, rfl, rfl, rfl⟩

/-- OutputsDoNotFeedBack: states that differ in their outputs, for each clause. -/
theorem witness_outputs :
    ∃ s s' : State, SameButOutputs s s' ∧ s.trace ≠ s'.trace ∧ s.diag ≠ s'.diag ∧ (∃ t, step s = .next t) ∧
      ∃ t, step (at_ 2#32 [0#32] [] []) = .fault (.misalignedPc t) :=
  ⟨storing, storing.unknownWord 0#32 |> fun t => { t with pc := 0#32 }, ⟨rfl, rfl, rfl, rfl, rfl, rfl, rfl⟩, by decide,
    by decide, ⟨_, rfl⟩, ⟨_, rfl⟩⟩

/-- ReachableStatesAreSound: a state reached by reset, a launch and a step. -/
theorem witness_reachable : ∃ s, Reachable s ∧ s.pc = 4#32 ∧ s.trace ≠ [] := by
  refine ⟨_, .step (.launch (InitState.reset 0#32) [0x00500093#32] (.reset 0#32) ?_ ?_ ?_) rfl, ?_, ?_⟩ <;> decide

/-- LoadAfterStore: the same address, and the next address. -/
theorem witness_load_after_store :
    MemCanonical storing ∧ (11 : RegIdx) ≠ 0 ∧
    (∃ t, exec (.sw 10 2 0#12) storing = .next t ∧ (∃ u, exec (.lw 11 2 0#12) t = .next u ∧ u.reg 11 = 7#32) ∧
      ∃ u, exec (.lw 11 2 1#12) t = .next u ∧ u.reg 11 = 0#32) :=
  ⟨storing_sound.memCanonical, by decide, _, rfl, ⟨_, rfl, by decide⟩, ⟨_, rfl, by decide⟩⟩

/-- LiteralsHaveTheirValue: digits in both cases, and the digits of 0. -/
theorem witness_hex_digits :
    (line "7fF").map Char.toLower = Nat.toDigits 16 2047 ∧ (line "0").map Char.toLower = Nat.toDigits 16 0 := by decide

/-- R121's grammar: a sign before upper-case hexadecimal, and a leading zero. -/
theorem test_literals : literal (line "-0XABCDEF") = some (-11259375) ∧ literal (line "+0x0010") = some 16 ∧
    literal (line "-07") = some (-7) ∧ literal (line "0b101") = none ∧ literal (line "0x") = none := by decide

/-- WordsFollowTheLines, SymbolTableIsAPartialMap: a source with a label, and a source without an instruction line (VA2). -/
theorem witness_assembles :
    (∃ b, scanAll EncBook.reset [line "# only comment", [], line "lab:"] = .ok b ∧ b.recorded = [] ∧
      b.symtab = [(line "lab", 0)]) ∧
    (∃ b ws, scanAll EncBook.reset [line "x: jal x0, x"] = .ok b ∧ assemble [line "x: jal x0, x"] = .ok ws ∧
      b.recorded.length = 1 ∧ ws = [0x0000006F#32]) := ⟨⟨_, rfl, rfl, rfl⟩, ⟨_, _, rfl, rfl, rfl, rfl⟩⟩

/-- DuplicateLabelFails: a second definition, and a source in error in pass 1 after one of pass 2. -/
theorem witness_duplicate :
    (∃ b : EncBook, splitLabel (preprocess (line "a: halt")) = some (['a'], line "halt") ∧ isLabelName ['a'] = true ∧
      ['a'] ∈ b.symtab.map Prod.fst) ∧
    (∃ e, scanAll EncBook.reset [line "mul x1", line "x:", line "x:"] = .error e) :=
  ⟨⟨{ EncBook.reset with symtab := [(['a'], 0)] }, rfl, by decide, by decide⟩, ⟨_, rfl⟩⟩

/-- ImmediateRangesAndFields: operands that resolve, the literal at a bound and past it. -/
theorem witness_operands :
    resolveReg (line "x1") = .ok 1 ∧ resolveReg (line "sp") = .ok 2 ∧ literal (line "2047") = some 2047 ∧
    literal (line "2048") = some 2048 ∧ literal (line "-0x800") = some (-2048) ∧
    splitMemOffset (line "2047(sp)") = some (line "2047", line "sp") ∧
    splitMemOffset (line "2048( sp )") = some (line "2048", line "sp") := ⟨rfl, rfl, rfl, rfl, rfl, rfl, rfl⟩

/-- LabelBranchesLandOnTheLabel: the label 4096 behind and 4092 ahead, registers equal and not; past the range of a branch
and at the ends of that of `jal`. -/
theorem witness_label_branch :
    ∃ s t : State, resolveReg (line "x1") = .ok 1 ∧ resolveReg (line "x2") = .ok 2 ∧ literal (line "loop") = none ∧
      lookupName [(line "loop", 1048576)] (line "loop") = some 1048576 ∧ 1048576 % 4 = 0 ∧
      s.pc = BitVec.ofNat 32 1052672 ∧ 1052672 % 4 = 0 ∧ s.reg 1 = s.reg 2 ∧ -4096 ≤ (1048576 : Int) - 1052672 ∧
      t.pc = BitVec.ofNat 32 1044484 ∧ 1044484 % 4 = 0 ∧ t.reg 1 ≠ t.reg 2 ∧ (1048576 : Int) - 1044484 ≤ 4095 ∧
      ¬(1048576 : Int) - 4 ≤ 4095 ∧ (1048576 : Int) - 4 ≤ 1048575 ∧ -1048576 ≤ (1048576 : Int) - 2097152 ∧
      ¬(1048576 : Int) - 0 ≤ 1048575 :=
  ⟨at_ 1052672#32 [] [] [], at_ 1044484#32 [] [(1, 1#32)] [], by decide⟩

/-- EmittedWordsDecodeToTheirMnemonic: a line of `halt` and a line of another mnemonic. -/
theorem witness_encodeLine :
    encodeLine [] { lineNo := 1, addr := 0, text := line "halt" } = .ok 0xFFFFFFFF#32 ∧
    encodeLine [] { lineNo := 1, addr := 0, text := line "rst" } = .ok 0#32 := ⟨rfl, rfl⟩

/-- MachineCodeLineRoundTrip: `k < 32` at its end. -/
theorem witness_line_position : 31 < 32 ∧ (machineCodeLine 1#32)[31]? = some '1' := ⟨by decide, rfl⟩

/-! ### The placed word -/

/-- A placed word is fetched and run right after reset. -/
theorem test_withFetchWord_after_reset :
    step (State.reset.withFetchWord 32 0x00500093) = exec (.addi 1 0 5#12) (State.reset.withFetchWord 32 0x00500093) ∧
    step (State.reset.withFetchWord 32 0xFFFFFFFF) = exec .halt (State.reset.withFetchWord 32 0xFFFFFFFF) := ⟨rfl, rfl⟩

end Sys2Proof.Tests
end

section
/-!
PROOF. `x[0]` is hardwired to 0 (10_state.md R22): a write to it is discarded and no step touches its slot.
-/

namespace Sys2Proof.Machine

/-- A write to `x[0]` is discarded. -/
@[simp] theorem setReg_zero (s : State) (v : Word) : s.setReg 0 v = s := by
  simp [State.setReg, writeRegs]

/-- An instruction changes no register but the one its `rd` field names (10_state.md R24). -/
theorem exec_reg_of_destOf_ne {i : Instr} {s t : State} (h : exec i s = .next t) {r : RegIdx}
    (hr : destOf i ≠ some r) : t.reg r = s.reg r := by
  cases exec_completes h with
  | register rd v npc hd _ _ _ ht =>
    have hne : r ≠ rd := fun e => hr (e ▸ hd)
    by_cases h0 : r = 0 <;> simp [ht, reg_setReg, h0, hne]
  | memory addr v _ _ _ _ ht => simp [ht]
  | branch npc _ _ _ _ ht => simp [ht]
  | unknown _ ht => simp [ht, State.unknownWord]
  | halted _ ht => simp [ht]

/-- An instruction whose `rd` is 0 changes no register: `x[0]` reads 0 anyway, every other register is not its `rd`. -/
theorem exec_regsKept_of_destOf_zero {i : Instr} {s t : State} (hd : destOf i = some 0)
    (h : exec i s = .next t) : RegsKept s t := by
  intro r
  by_cases h0 : r = 0
  · simp [h0]
  · exact exec_reg_of_destOf_ne h (by simpa [hd] using Ne.symm h0)

/-- No instruction touches the slot of `x[0]`. -/
theorem exec_slot_zero {i : Instr} {s t : State} (h : exec i s = .next t) : t.regs[0] = s.regs[0] := by
  cases exec_completes h with
  | register rd v npc _ _ _ _ ht => simp [ht]
  | memory addr v _ _ _ _ ht => simp [ht]
  | branch npc _ _ _ _ ht => simp [ht]
  | unknown _ ht => simp [ht, State.unknownWord]
  | halted _ ht => simp [ht]

/-- No step touches the slot of `x[0]`. -/
theorem step_slot_zero {s t : State} (h : step s = .next t) : t.regs[0] = s.regs[0] := by
  cases step_next h with
  | encoder _ ht => simp [ht]
  | rest _ _ ht => rw [ht]
  | offEnd _ _ ht => simp [ht]
  | instr w i _ _ _ _ he => exact exec_slot_zero he
  | unknown w _ _ ht => simp [ht, State.unknownWord]

/-- Every step keeps `registers[0]` at 0. -/
theorem step_regZero {s t : State} (hz : RegZero s) (h : step s = .next t) : RegZero t :=
  (step_slot_zero h).trans hz

/-- A `jal` jumps to its target, whatever its `rd` (47_j_type.md R225). -/
theorem exec_jal_pc (s : State) (rd : RegIdx) (off : BitVec 21) :
    ∃ t, exec (.jal rd off) s = .next t ∧ t.pc = s.jalTarget off := ⟨_, rfl, complete_pc _ _⟩

/-- A `jalr` jumps to its target, whatever its `rd` (43_i_type.md R204). -/
theorem exec_jalr_pc (s : State) (rd rs1 : RegIdx) (imm : BitVec 12) :
    ∃ t, exec (.jalr rd rs1 imm) s = .next t ∧ t.pc = s.jalrTarget rs1 imm := ⟨_, rfl, complete_pc _ _⟩

/-- Settles O40: reads and writes by the rules of `x[0]`, the invariant because no step touches its slot, the frame of
`rd = 0` by the register frame, the jumps because their pc does not depend on `rd`. -/
theorem registerZeroIsHardwired : Obligations.RegisterZeroIsHardwired :=
  ⟨reg_zero, setReg_zero, fun _ _ => step_regZero, fun _ _ _ => exec_regsKept_of_destOf_zero,
    fun s => exec_jal_pc s 0, fun s => exec_jalr_pc s 0⟩

end Sys2Proof.Machine
end

section
/-!
PROOF. The program is immutable (20_memory.md R62): a store goes to data memory, and no step writes `EXE.imem`.
-/

namespace Sys2Proof.Machine

/-- The unknown-word rule reports, advances and snapshots; it writes no instruction word (48_sentinels_unknown.md R232). -/
@[simp] theorem unknownWord_imem (s : State) (w : Word) : (s.unknownWord w).imem = s.imem := by
  simp [State.unknownWord]

/-- No instruction writes instruction memory, a store included (20_memory.md R50). -/
theorem exec_imem {i : Instr} {s t : State} (h : exec i s = .next t) : t.imem = s.imem := by
  cases exec_completes h with
  | register rd v npc _ _ _ _ ht => simp [ht]
  | memory addr v _ _ _ _ ht => simp [ht]
  | branch npc _ _ _ _ ht => simp [ht]
  | unknown _ ht => simp [ht]
  | halted _ ht => simp [ht]

/-- No step of either agent writes instruction memory. -/
theorem step_imem {s t : State} (h : step s = .next t) : t.imem = s.imem := by
  cases step_next h with
  | encoder _ ht => simp [ht]
  | rest _ _ ht => rw [ht]
  | offEnd _ _ ht => simp [ht]
  | instr w i _ _ _ _ he => exact exec_imem he
  | unknown w _ _ ht => simp [ht]

/-- Settles O36: no step writes instruction memory, and a fetch reads nothing but the pc and instruction memory. -/
theorem programIsImmutable : Obligations.ProgramIsImmutable := by
  intro s t h
  have himem : t.imem = s.imem := step_imem h
  exact ⟨himem, fun _ => fetch_of_pc_imem rfl himem⟩

end Sys2Proof.Machine
end

section
/-!
PROOF. The R, I and S formats (30_encoding.md R72 to R74): a packed word holds every field at its bits, and the fields of a
word, glued slice by slice, are the word.
-/

namespace Sys2Proof

/-- The range of a signed field. -/
theorem toInt_bounds {n : Nat} (x : BitVec (n + 1)) : -2 ^ n ≤ x.toInt ∧ x.toInt ≤ 2 ^ n - 1 :=
  ⟨x.le_toInt, Int.le_sub_one_of_lt x.toInt_lt⟩

/-! ### The register fields of a word, as slices -/

theorem regBits_rdOf (w : Word) : regBits (rdOf w) = w.extractLsb' 7 5 := rfl

theorem regBits_rs1Of (w : Word) : regBits (rs1Of w) = w.extractLsb' 15 5 := rfl

theorem regBits_rs2Of (w : Word) : regBits (rs2Of w) = w.extractLsb' 20 5 := rfl

/-! ### The slices of the S immediate are slices of the word -/

theorem immSOf_slice_11_5 (w : Word) : (immSOf w).extractLsb' 5 7 = w.extractLsb' 25 7 :=
  BitVec.extractLsb'_append_eq_left

theorem immSOf_slice_4_0 (w : Word) : (immSOf w).extractLsb' 0 5 = w.extractLsb' 7 5 :=
  BitVec.extractLsb'_append_eq_right

theorem packS_slice_31_25 (imm : BitVec 12) (rs2 rs1 : RegIdx) (f3 : BitVec 3) (op : BitVec 7) :
    (packS imm rs2 rs1 f3 op).extractLsb' 25 7 = imm.extractLsb' 5 7 := by
  rw [← immSOf_slice_11_5, immSOf_packS]

theorem packS_slice_11_7 (imm : BitVec 12) (rs2 rs1 : RegIdx) (f3 : BitVec 3) (op : BitVec 7) :
    (packS imm rs2 rs1 f3 op).extractLsb' 7 5 = imm.extractLsb' 0 5 := by
  rw [← immSOf_slice_4_0, immSOf_packS]

/-! ### Packing the fields of a word: adjacent slices glue, up to the whole word -/

theorem packR_fields (w : Word) : packR (funct7Of w) (rs2Of w) (rs1Of w) (funct3Of w) (rdOf w) (opcodeOf w) = w := by
  simp only [packR, funct7Of, funct3Of, opcodeOf, regBits_rdOf, regBits_rs1Of, regBits_rs2Of,
    BitVec.extractLsb'_append_extractLsb'_eq_extractLsb']
  exact BitVec.extractLsb'_eq_self

theorem packI_fields (w : Word) : packI (immIOf w) (rs1Of w) (funct3Of w) (rdOf w) (opcodeOf w) = w := by
  simp only [packI, immIOf, funct3Of, opcodeOf, regBits_rdOf, regBits_rs1Of,
    BitVec.extractLsb'_append_extractLsb'_eq_extractLsb']
  exact BitVec.extractLsb'_eq_self

theorem packS_fields (w : Word) : packS (immSOf w) (rs2Of w) (rs1Of w) (funct3Of w) (opcodeOf w) = w := by
  simp only [packS, immSOf_slice_11_5, immSOf_slice_4_0, funct3Of, opcodeOf, regBits_rs1Of, regBits_rs2Of,
    BitVec.extractLsb'_append_extractLsb'_eq_extractLsb']
  exact BitVec.extractLsb'_eq_self

/-- Settles O1: each field of a packed word by its lemma, each word from its fields by gluing the slices, the ranges from
the width of the immediate. -/
theorem packersOfRISPlaceFields : Obligations.PackersOfRISPlaceFields := by
  refine ⟨?placeR, packR_fields, ?placeI, packI_fields, ?placeS, packS_fields, ?ranges⟩
  case placeR =>
    exact fun _ _ _ _ _ _ => ⟨funct7Of_packR .., rs2Bits_packR .., rs1Bits_packR .., funct3Of_packR .., rdBits_packR ..,
      opcodeOf_packR ..⟩
  case placeI =>
    exact fun _ _ _ _ _ => ⟨immIOf_packI .., rs1Bits_packI .., funct3Of_packI .., rdBits_packI .., opcodeOf_packI ..⟩
  case placeS =>
    exact fun _ _ _ _ _ => ⟨packS_slice_31_25 .., rs2Bits_packS .., rs1Bits_packS .., funct3Of_packS ..,
      packS_slice_11_7 .., opcodeOf_packS .., immSOf_packS ..⟩
  case ranges =>
    intro w
    obtain ⟨hIlo, hIhi⟩ := toInt_bounds (immIOf w)
    exact ⟨hIlo, hIhi, toInt_bounds (immSOf w)⟩

end Sys2Proof
end

section
/-!
PROOF. The B, U and J formats (30_encoding.md R75 to R77). A slice of an immediate is a slice of the word, and the unpacked
immediate of a packed word agrees with the packed one in every bit but the unstored ones: so each stored bit stands at its
place.
-/

namespace Sys2Proof

/-! ### Bits and slices -/

/-- Two vectors that agree from bit 1 on have the same slices from bit 1 on. -/
theorem slice_eq_of_bits {n m : Nat} {x : BitVec n} {y : BitVec m} (h : ∀ k, 1 ≤ k → x.getLsbD k = y.getLsbD k)
    {start len : Nat} (hs : 1 ≤ start) : x.extractLsb' start len = y.extractLsb' start len := by
  apply BitVec.eq_of_getLsbD_eq
  intro i _
  simp [BitVec.getLsbD_extractLsb', h (start + i) (by omega)]

/-- A slice of one bit is that bit. -/
theorem bit_eq_of_slice {n m a b : Nat} {x : BitVec n} {y : BitVec m} (h : x.extractLsb' a 1 = y.extractLsb' b 1) :
    x.getLsbD a = y.getLsbD b := by
  simpa using congrArg (·.getLsbD 0) h

/-- Bit 0 of an immediate forced 0: every other bit is kept. -/
theorem getLsbD_forceBit0 {n : Nat} (x : BitVec (n + 1)) {k : Nat} (hk : 1 ≤ k) :
    (x.extractLsb' 1 n ++ 0#1).getLsbD k = x.getLsbD k := by
  have hk' : 1 + (k - 1) = k := by omega
  rw [BitVec.getLsbD_append, if_neg (by omega), BitVec.getLsbD_extractLsb', hk']
  by_cases hn : k < n + 1
  · simp [show k - 1 < n by omega]
  · simp [BitVec.getLsbD_of_ge x k (by omega)]

/-- The low 12 bits of a word cleared, as a number. -/
theorem toNat_clearLow12 (v : BitVec 32) : (v.extractLsb' 12 20 ++ 0#12).toNat = v.toNat / 4096 * 4096 := by
  have hfits : v.toNat / 2 ^ 12 < 2 ^ 20 := by omega
  rw [BitVec.toNat_append, BitVec.extractLsb'_toNat, Nat.shiftRight_eq_div_pow, Nat.shiftLeft_eq, Nat.mod_eq_of_lt hfits]
  exact Nat.or_zero _

/-! ### `pack_B` -/

theorem immBOf_slice_12 (w : Word) : (immBOf w).extractLsb' 12 1 = w.extractLsb' 31 1 := by
  simp only [immBOf, BitVec.extractLsb'_append_eq_of_le, BitVec.extractLsb'_eq_self, Nat.reduceLeDiff, Nat.reduceSub,
    Nat.le_refl, Nat.sub_self]

theorem immBOf_slice_11 (w : Word) : (immBOf w).extractLsb' 11 1 = w.extractLsb' 7 1 := by
  simp only [immBOf, BitVec.extractLsb'_append_eq_of_le, BitVec.extractLsb'_append_eq_right, Nat.reduceLeDiff, Nat.reduceSub,
    Nat.le_refl, Nat.sub_self]

theorem immBOf_slice_10_5 (w : Word) : (immBOf w).extractLsb' 5 6 = w.extractLsb' 25 6 := by
  simp only [immBOf, BitVec.extractLsb'_append_eq_of_le, BitVec.extractLsb'_append_eq_right, Nat.reduceLeDiff, Nat.reduceSub,
    Nat.le_refl, Nat.sub_self]

theorem immBOf_slice_4_1 (w : Word) : (immBOf w).extractLsb' 1 4 = w.extractLsb' 8 4 := by
  simp only [immBOf, BitVec.extractLsb'_append_eq_of_le, BitVec.extractLsb'_append_eq_right, Nat.le_refl, Nat.sub_self]

theorem immBOf_bit0 (w : Word) : (immBOf w).getLsbD 0 = false := by
  rw [immBOf, BitVec.getLsbD_append, if_pos (by decide)]; rfl

/-- Every stored bit of the B immediate comes back. -/
theorem immBOf_packB_bit (imm : BitVec 13) (rs2 rs1 : RegIdx) (f3 : BitVec 3) (op : BitVec 7) {k : Nat} (hk : 1 ≤ k) :
    (immBOf (packB imm rs2 rs1 f3 op)).getLsbD k = imm.getLsbD k := by
  rw [immBOf_packB]; exact getLsbD_forceBit0 imm hk

theorem packB_fields (w : Word) : packB (immBOf w) (rs2Of w) (rs1Of w) (funct3Of w) (opcodeOf w) = w := by
  simp only [packB, immBOf_slice_12, immBOf_slice_11, immBOf_slice_10_5, immBOf_slice_4_1, funct3Of, opcodeOf,
    regBits_rs1Of, regBits_rs2Of, BitVec.extractLsb'_append_extractLsb'_eq_extractLsb']
  exact BitVec.extractLsb'_eq_self

/-! ### `pack_U` -/

theorem immUOf_slice_31_12 (w : Word) : (immUOf w).extractLsb' 12 20 = w.extractLsb' 12 20 :=
  BitVec.extractLsb'_append_eq_left

theorem packU_slice_31_12 (v : BitVec 32) (rd : RegIdx) (op : BitVec 7) :
    (packU v rd op).extractLsb' 12 20 = v.extractLsb' 12 20 := by
  rw [← immUOf_slice_31_12, immUOf_packU]; exact BitVec.extractLsb'_append_eq_left

theorem packU_fields (w : Word) : packU (immUOf w) (rdOf w) (opcodeOf w) = w := by
  simp only [packU, immUOf_slice_31_12, opcodeOf, regBits_rdOf, BitVec.extractLsb'_append_extractLsb'_eq_extractLsb']
  exact BitVec.extractLsb'_eq_self

/-! ### `pack_J` -/

theorem immJOf_slice_20 (w : Word) : (immJOf w).extractLsb' 20 1 = w.extractLsb' 31 1 := by
  simp only [immJOf, BitVec.extractLsb'_append_eq_of_le, BitVec.extractLsb'_eq_self, Nat.reduceLeDiff, Nat.reduceSub,
    Nat.le_refl, Nat.sub_self]

theorem immJOf_slice_19_12 (w : Word) : (immJOf w).extractLsb' 12 8 = w.extractLsb' 12 8 := by
  simp only [immJOf, BitVec.extractLsb'_append_eq_of_le, BitVec.extractLsb'_append_eq_right, Nat.reduceLeDiff, Nat.reduceSub,
    Nat.le_refl, Nat.sub_self]

theorem immJOf_slice_11 (w : Word) : (immJOf w).extractLsb' 11 1 = w.extractLsb' 20 1 := by
  simp only [immJOf, BitVec.extractLsb'_append_eq_of_le, BitVec.extractLsb'_append_eq_right, Nat.reduceLeDiff, Nat.reduceSub,
    Nat.le_refl, Nat.sub_self]

theorem immJOf_slice_10_1 (w : Word) : (immJOf w).extractLsb' 1 10 = w.extractLsb' 21 10 := by
  simp only [immJOf, BitVec.extractLsb'_append_eq_of_le, BitVec.extractLsb'_append_eq_right, Nat.le_refl, Nat.sub_self]

theorem immJOf_bit0 (w : Word) : (immJOf w).getLsbD 0 = false := by
  rw [immJOf, BitVec.getLsbD_append, if_pos (by decide)]; rfl

/-- Every stored bit of the J immediate comes back. -/
theorem immJOf_packJ_bit (imm : BitVec 21) (rd : RegIdx) (op : BitVec 7) {k : Nat} (hk : 1 ≤ k) :
    (immJOf (packJ imm rd op)).getLsbD k = imm.getLsbD k := by
  rw [immJOf_packJ]; exact getLsbD_forceBit0 imm hk

theorem packJ_fields (w : Word) : packJ (immJOf w) (rdOf w) (opcodeOf w) = w := by
  simp only [packJ, immJOf_slice_20, immJOf_slice_19_12, immJOf_slice_11, immJOf_slice_10_1, opcodeOf,
    regBits_rdOf, BitVec.extractLsb'_append_extractLsb'_eq_extractLsb']
  exact BitVec.extractLsb'_eq_self

/-- Settles O2: the stored bits come back in the unpacked immediate, whose slices are slices of the word; each word from its
fields by gluing those slices; the ranges from the widths. -/
theorem packersOfBUJPlaceFields : Obligations.PackersOfBUJPlaceFields := by
  refine ⟨?placeB, packB_fields, toInt_bounds, ?placeU, packU_fields, ?placeJ, packJ_fields, toInt_bounds⟩
  case placeB =>
    intro imm rs2 rs1 f3 op w
    have hbit : ∀ k, 1 ≤ k → (immBOf w).getLsbD k = imm.getLsbD k := fun _ => immBOf_packB_bit imm rs2 rs1 f3 op
    have hslice : ∀ a len, 1 ≤ a → (immBOf w).extractLsb' a len = imm.extractLsb' a len := fun _ _ => slice_eq_of_bits hbit
    refine ⟨?_, ?_, rs2Bits_packB .., rs1Bits_packB .., funct3Of_packB .., ?_, ?_, opcodeOf_packB .., immBOf_bit0 w, hbit⟩
    · rw [← bit_eq_of_slice (immBOf_slice_12 w), hbit 12 (by decide)]
    · rw [← immBOf_slice_10_5, hslice 5 6 (by decide)]
    · rw [← immBOf_slice_4_1, hslice 1 4 (by decide)]
    · rw [← bit_eq_of_slice (immBOf_slice_11 w), hbit 11 (by decide)]
  case placeU =>
    intro v rd op w
    refine ⟨packU_slice_31_12 .., rdBits_packU .., opcodeOf_packU .., ?_⟩
    calc (immUOf w).toNat = (v.extractLsb' 12 20 ++ 0#12).toNat := by rw [immUOf_packU]
      _ = v.toNat / 4096 * 4096 := toNat_clearLow12 v
  case placeJ =>
    intro imm rd op w
    have hbit : ∀ k, 1 ≤ k → (immJOf w).getLsbD k = imm.getLsbD k := fun _ => immJOf_packJ_bit imm rd op
    have hslice : ∀ a len, 1 ≤ a → (immJOf w).extractLsb' a len = imm.extractLsb' a len := fun _ _ => slice_eq_of_bits hbit
    refine ⟨?_, ?_, ?_, ?_, rdBits_packJ .., opcodeOf_packJ .., immJOf_bit0 w, hbit⟩
    · rw [← bit_eq_of_slice (immJOf_slice_20 w), hbit 20 (by decide)]
    · rw [← immJOf_slice_10_1, hslice 1 10 (by decide)]
    · rw [← bit_eq_of_slice (immJOf_slice_11 w), hbit 11 (by decide)]
    · rw [← immJOf_slice_19_12, hslice 12 8 (by decide)]

end Sys2Proof
end

section
/-!
PROOF. The machine-code text (30_encoding.md R93): a line reads back as its word because its characters are the bits of the word in
order of weight, and the file is cut into lines by their one length.
-/

namespace Sys2Proof.Machine

@[simp] theorem charBit_bitChar (b : Bool) : charBit (bitChar b) = some b := by cases b <;> decide

@[simp] theorem bitsValue_bitChar (b : Bool) (t : Text) (acc : Nat) :
    bitsValue (bitChar b :: t) acc = bitsValue t (2 * acc + b.toNat) := by
  simp [bitsValue]

@[simp] theorem bitsText_length (w : Word) : (bitsText w).length = 32 := by simp [bitsText]

@[simp] theorem machineCodeLine_length (w : Word) : (machineCodeLine w).length = 33 := by simp [machineCodeLine]

/-- Reading the low `n` bits of a word, most significant first, after leading bits of value `acc`. -/
theorem bitsValue_lowBits (w : Word) (n acc : Nat) :
    bitsValue ((List.range n).map fun k => bitChar (w.getLsbD (n - 1 - k))) acc =
      some (acc * 2 ^ n + w.toNat % 2 ^ n) := by
  induction n generalizing acc with
  | zero => simp [bitsValue, Nat.mod_one]
  | succ n ih =>
    have htail : ((List.range n).map Nat.succ).map (fun k => bitChar (w.getLsbD (n + 1 - 1 - k))) =
        (List.range n).map fun k => bitChar (w.getLsbD (n - 1 - k)) := by
      simp [Nat.sub_sub, Nat.add_comm]
    have hbit : (w.getLsbD n).toNat = w.toNat / 2 ^ n % 2 := Nat.toNat_testBit ..
    rw [List.range_succ_eq_map, List.map_cons, htail, bitsValue_bitChar, ih, Nat.mod_pow_succ, ← hbit]
    simp only [Nat.add_sub_cancel, Nat.sub_zero, Option.some.injEq]
    ring

theorem bitsValue_bitsText (w : Word) : bitsValue (bitsText w) 0 = some w.toNat := by
  calc bitsValue (bitsText w) 0 = some (0 * 2 ^ 32 + w.toNat % 2 ^ 32) := bitsValue_lowBits w 32 0
    _ = some w.toNat := by simp [Nat.mod_eq_of_lt w.isLt]

theorem machineCodeLine_char (w : Word) {k : Nat} (hk : k < 32) :
    (machineCodeLine w)[k]? = some (if w.getLsbD (31 - k) then '1' else '0') := by
  simp [machineCodeLine, bitsText, bitChar, List.getElem?_append_left, hk]

theorem machineCodeLine_newline (w : Word) : (machineCodeLine w)[32]? = some '\n' := by
  simp [machineCodeLine]

theorem readMachineCodeLine_machineCodeLine (w : Word) : readMachineCodeLine (machineCodeLine w) = some w := by
  have htake : (machineCodeLine w).take 32 = bitsText w := List.take_left' (bitsText_length w)
  have hdrop : (machineCodeLine w).drop 32 = ['\n'] := List.drop_left' (bitsText_length w)
  simp [readMachineCodeLine, htake, hdrop, bitsValue_bitsText]

theorem machineCodeFile_cons (w : Word) (ws : List Word) :
    machineCodeFile (w :: ws) = machineCodeLine w ++ machineCodeFile ws := rfl

theorem machineCodeFile_length (ws : List Word) : (machineCodeFile ws).length = 33 * ws.length := by
  induction ws with
  | nil => rfl
  | cons w ws ih => rw [machineCodeFile_cons, List.length_append, machineCodeLine_length, ih, List.length_cons]; omega

theorem machineCodeFile_line {ws : List Word} {i : Nat} {w : Word} (h : ws[i]? = some w) :
    ((machineCodeFile ws).drop (33 * i)).take 33 = machineCodeLine w := by
  induction ws generalizing i with
  | nil => simp at h
  | cons v ws ih =>
    cases i with
    | zero =>
      obtain rfl : v = w := by simpa using h
      exact List.take_left' (machineCodeLine_length v)
    | succ i =>
      have hskip : (machineCodeFile (v :: ws)).drop (33 * (i + 1)) = (machineCodeFile ws).drop (33 * i) := by
        rw [Nat.mul_succ, Nat.add_comm, ← machineCodeLine_length v, machineCodeFile_cons, List.drop_length_add_append]
      rw [hskip]
      exact ih (by simpa using h)

/-- Settles O60: a line character by character and its value bit by bit, the file line by line. -/
theorem machineCodeLineRoundTrip : Obligations.MachineCodeLineRoundTrip :=
  ⟨fun w => ⟨machineCodeLine_length w, machineCodeLine_newline w, fun _ => machineCodeLine_char w,
      readMachineCodeLine_machineCodeLine w⟩,
    fun ws => ⟨machineCodeFile_length ws, fun _ _ => machineCodeFile_line⟩⟩

end Sys2Proof.Machine
end

section
/-!
PROOF. The words of a source follow its instruction lines (40_encoder.md R134): pass 1 is followed line by line from the
reset books, keeping that what is recorded is what the lines read so far hold, and pass 2 pairs each recorded line with its
word.
-/

namespace Sys2Proof.Machine

/-! ### Pass 1 -/

theorem scanAll_cons_ok {b c : EncBook} {line : Text} {rest : List Text} :
    scanAll b (line :: rest) = .ok c ↔ ∃ d, scanLine b line = .ok d ∧ scanAll d rest = .ok c := by
  simp only [scanAll]
  cases scanLine b line <;> simp

/-- What holds of the books before the first line, and is carried to the next line by every scan, holds when the source is
read: the induction of pass 1, over the lines read so far. -/
theorem scanAll_invariant {P : List Text → EncBook → Prop}
    (hstep : ∀ {seen line b c}, P seen b → scanLine b line = .ok c → P (seen ++ [line]) c)
    {seen src : List Text} {b c : EncBook} (hb : P seen b) (h : scanAll b src = .ok c) : P (seen ++ src) c := by
  induction src generalizing seen b with
  | nil =>
    obtain rfl : b = c := by simpa [scanAll] using h
    simpa using hb
  | cons line rest ih =>
    obtain ⟨d, hline, hrest⟩ := scanAll_cons_ok.mp h
    simpa using ih (hstep hb hline) hrest

/-- A recorded line goes to the address counter, which is that of the next instruction line (R113, R115). -/
theorem recordLine_recordedOk {b : EncBook} {n : Nat} (hb : RecordedOk b n) (t : Text) : RecordedOk (recordLine b t) n := by
  by_cases ht : t = []
  · rwa [ht, recordLine_blank]
  · rw [recordLine_text b t ht]
    obtain ⟨haddr, hlines⟩ := hb
    refine ⟨by simp only [haddr, List.length_append, List.length_singleton]; omega, fun k hk => ?_⟩
    rcases Nat.lt_or_ge k b.recorded.length with hold | hnew
    · simpa only [List.getElem_append_left hold] using hlines k hold
    · obtain rfl : k = b.recorded.length := by simp at hk; omega
      simpa only [List.getElem_concat_length] using ⟨haddr, ht⟩

/-- Neither the line number nor a new label is seen by the recorded lines' addresses. -/
theorem scanLine_recordedOk {b c : EncBook} {line : Text} {n : Nat} (hb : RecordedOk b n)
    (h : scanLine b line = .ok c) : RecordedOk c n := by
  have hb' : ∀ symtab, RecordedOk { b with lineNo := b.lineNo + 1, symtab := symtab } n := fun _ => hb
  cases scanLine_ok h with
  | plain _ hc => rw [hc]; exact recordLine_recordedOk (hb' _) _
  | labelled name rest _ _ _ hc => rw [hc]; exact recordLine_recordedOk (hb' _) _

theorem recordedOk_reset : RecordedOk EncBook.reset 0 := ⟨rfl, fun k hk => absurd hk k.not_lt_zero⟩

theorem recordedOk_of_scanAll {src : List Text} {b : EncBook} (h : scanAll EncBook.reset src = .ok b) : RecordedOk b 0 :=
  scanAll_invariant (P := fun _ b => RecordedOk b 0) (seen := []) scanLine_recordedOk recordedOk_reset h

/-- The recorded line stands in the source at its line number, with its instruction text. -/
def StandsIn (src : List Text) (r : InstrLine) : Prop :=
  1 ≤ r.lineNo ∧ (src[r.lineNo - 1]?).map instructionText = some r.text

theorem StandsIn.lineNo_le {src : List Text} {r : InstrLine} (h : StandsIn src r) : r.lineNo ≤ src.length := by
  obtain ⟨_, htext⟩ := h
  obtain ⟨line, hline, -⟩ := Option.map_eq_some_iff.mp htext
  obtain ⟨hlt, -⟩ := List.getElem?_eq_some_iff.mp hline
  omega

theorem StandsIn.append {src : List Text} {r : InstrLine} (h : StandsIn src r) (more : List Text) :
    StandsIn (src ++ more) r := by
  obtain ⟨hpos, htext⟩ := h
  have hlt : r.lineNo - 1 < src.length := by have := StandsIn.lineNo_le ⟨hpos, htext⟩; omega
  exact ⟨hpos, by rwa [List.getElem?_append_left hlt]⟩

/-- The last line of a source stands in it, at the address the counter has. -/
theorem standsIn_last (src : List Text) (line : Text) (addr : Nat) :
    StandsIn (src ++ [line]) { lineNo := src.length + 1, addr := addr, text := instructionText line } :=
  ⟨Nat.le_add_left 1 _, by simp⟩

/-- The books after the lines `src` of a source: the recorded lines are its nonblank instruction texts, in its order, each
with its line number. -/
structure RecordsSource (src : List Text) (b : EncBook) : Prop where
  lineNo : b.lineNo = src.length
  texts : b.recorded.map InstrLine.text = (src.map instructionText).filter fun t => !t.isEmpty
  ascending : b.recorded.Pairwise fun r r' => r.lineNo < r'.lineNo
  standsIn : ∀ r ∈ b.recorded, StandsIn src r

theorem recordsSource_reset : RecordsSource [] EncBook.reset := ⟨rfl, rfl, .nil, nofun⟩

/-- Pass 1 on one more line: a blank instruction text adds none, any other is the last text, at the highest number. -/
theorem scanLine_recordsSource {src : List Text} {line : Text} {b c : EncBook} (hb : RecordsSource src b)
    (h : scanLine b line = .ok c) : RecordsSource (src ++ [line]) c := by
  obtain ⟨hno, htexts, hasc, hstands⟩ := hb
  obtain ⟨hcno, hcrec⟩ := scanLine_recorded h
  have hcno' : c.lineNo = (src ++ [line]).length := by simp [hcno, hno]
  have hold : ∀ r ∈ b.recorded, StandsIn (src ++ [line]) r := fun r hr => (hstands r hr).append [line]
  by_cases hblank : (instructionText line).isEmpty = true
  · rw [if_pos hblank] at hcrec
    refine ⟨hcno', ?_, hcrec ▸ hasc, hcrec ▸ hold⟩
    simp [hcrec, htexts, hblank]
  · rw [if_neg hblank, hno] at hcrec
    refine ⟨hcno', ?_, ?_, ?_⟩
    · simp [hcrec, htexts, hblank]
    · rw [hcrec, List.pairwise_append]
      refine ⟨hasc, List.pairwise_singleton .., fun r hr r' hr' => ?_⟩
      rw [List.mem_singleton.mp hr']
      exact Nat.lt_succ_of_le (hstands r hr).lineNo_le
    · intro r hr
      rcases List.mem_append.mp (hcrec ▸ hr) with hr | hr
      · exact hold r hr
      · rw [List.mem_singleton.mp hr]
        exact standsIn_last src line b.addr

theorem recordsSource_of_scanAll {src : List Text} {b : EncBook} (h : scanAll EncBook.reset src = .ok b) :
    RecordsSource src b :=
  scanAll_invariant (P := RecordsSource) scanLine_recordsSource recordsSource_reset h

/-! ### Pass 2 -/

theorem encodeAll_cons_ok {symtab : List (Text × Nat)} {r : InstrLine} {rest : List InstrLine} {ws : List Word} :
    encodeAll symtab (r :: rest) = .ok ws ↔
      ∃ w vs, encodeLine symtab r = .ok w ∧ encodeAll symtab rest = .ok vs ∧ ws = w :: vs := by
  simp only [encodeAll]
  cases encodeLine symtab r <;> cases encodeAll symtab rest <;> simp [eq_comm]

/-- Pass 2 succeeds with exactly the words of the recorded lines, line by line. -/
theorem encodeAll_ok {symtab : List (Text × Nat)} {rs : List InstrLine} {ws : List Word} :
    encodeAll symtab rs = .ok ws ↔ List.Forall₂ (fun r w => encodeLine symtab r = .ok w) rs ws := by
  induction rs generalizing ws with
  | nil => simp [encodeAll, eq_comm]
  | cons r rest ih => simp only [encodeAll_cons_ok, ih, List.forall₂_cons_left_iff, exists_and_left]

/-! ### The whole run -/

theorem assemble_of_scanAll {src : List Text} {b : EncBook} (h : scanAll EncBook.reset src = .ok b) :
    assemble src = encodeAll b.symtab b.recorded := by
  simp only [assemble, h]

/-- A run that succeeds has read the source and encoded what was recorded. -/
theorem assemble_ok {src : List Text} {ws : List Word} (h : assemble src = .ok ws) :
    ∃ b, scanAll EncBook.reset src = .ok b ∧ encodeAll b.symtab b.recorded = .ok ws := by
  cases hscan : scanAll EncBook.reset src with
  | error e => simp [assemble, hscan] at h
  | ok b => exact ⟨b, rfl, (assemble_of_scanAll hscan).symm.trans h⟩

/-- The released words: as many as recorded lines, word `k` of the line recorded at `4 * k`. -/
theorem assemble_words {src : List Text} {ws : List Word} (h : assemble src = .ok ws) :
    ∃ b, scanAll EncBook.reset src = .ok b ∧ ws.length = b.recorded.length ∧
      ∀ k r w, b.recorded[k]? = some r → ws[k]? = some w → r.addr = 4 * k ∧ encodeLine b.symtab r = .ok w := by
  obtain ⟨b, hscan, hencode⟩ := assemble_ok h
  have hpairs := encodeAll_ok.mp hencode
  refine ⟨b, hscan, hpairs.length_eq.symm, fun k r w hr hw => ?_⟩
  obtain ⟨hk, rfl⟩ := List.getElem?_eq_some_iff.mp hr
  obtain ⟨hk', rfl⟩ := List.getElem?_eq_some_iff.mp hw
  obtain ⟨-, hlines⟩ := recordedOk_of_scanAll hscan
  obtain ⟨haddr, -⟩ := hlines k hk
  exact ⟨by rw [haddr, Nat.zero_add], hpairs.get hk hk'⟩

/-- Settles O52: the words by pass 2 and the addresses pass 1 records, the instruction lines by the invariant of pass 1, the
empty program because pass 2 has no line to encode, the bookkeeping because a finished ENC holds that of reset. -/
theorem wordsFollowTheLines : Obligations.WordsFollowTheLines := by
  refine ⟨fun _ _ => assemble_words, ?lines, ?empty, fun _ => ⟨rfl, rfl⟩⟩
  case lines =>
    intro src b h
    obtain ⟨-, htexts, hasc, hstands⟩ := recordsSource_of_scanAll h
    exact ⟨htexts, hasc, hstands⟩
  case empty =>
    intro src b h hnone
    rw [assemble_of_scanAll h, hnone]
    rfl

end Sys2Proof.Machine
end

section
/-!
PROOF. The round trip (30_encoding.md R92): a packed word decodes to its instruction without the bits it does not store, and a
word that decodes is packed from its own fields.
-/

namespace Sys2Proof

/-! ### The decoder under each opcode -/

theorem decode_of_opReg {w : Word} (h : opcodeOf w = opReg) : decode w = decodeReg w :=
  (decode_eq_decodeFormat h (by decide) (by decide)).trans (decodeFormat_reg h)

theorem decode_of_opImm {w : Word} (h : opcodeOf w = opImm) : decode w = decodeImm w :=
  (decode_eq_decodeFormat h (by decide) (by decide)).trans (decodeFormat_imm h)

theorem decode_of_opBranch {w : Word} (h : opcodeOf w = opBranch) : decode w = decodeBranch w :=
  (decode_eq_decodeFormat h (by decide) (by decide)).trans (decodeFormat_branch h)

theorem decode_of_opLoad {w : Word} (h : opcodeOf w = opLoad) :
    decode w = decodeOne w 0b010#3 (.lw (rdOf w) (rs1Of w) (immIOf w)) := by
  rw [decode_eq_decodeFormat h (by decide) (by decide), decodeFormat, h]; rfl

theorem decode_of_opJalr {w : Word} (h : opcodeOf w = opJalr) :
    decode w = decodeOne w 0b000#3 (.jalr (rdOf w) (rs1Of w) (immIOf w)) := by
  rw [decode_eq_decodeFormat h (by decide) (by decide), decodeFormat, h]; rfl

theorem decode_of_opStore {w : Word} (h : opcodeOf w = opStore) :
    decode w = decodeOne w 0b010#3 (.sw (rs2Of w) (rs1Of w) (immSOf w)) := by
  rw [decode_eq_decodeFormat h (by decide) (by decide), decodeFormat, h]; rfl

theorem decode_of_opLui {w : Word} (h : opcodeOf w = opLui) : decode w = .ok (.lui (rdOf w) (immUOf w)) := by
  rw [decode_eq_decodeFormat h (by decide) (by decide), decodeFormat, h]; rfl

theorem decode_of_opAuipc {w : Word} (h : opcodeOf w = opAuipc) : decode w = .ok (.auipc (rdOf w) (immUOf w)) := by
  rw [decode_eq_decodeFormat h (by decide) (by decide), decodeFormat, h]; rfl

theorem decode_of_opJal {w : Word} (h : opcodeOf w = opJal) : decode w = .ok (.jal (rdOf w) (immJOf w)) := by
  rw [decode_eq_decodeFormat h (by decide) (by decide), decodeFormat, h]; rfl

/-! ### Decoding a packed word -/

theorem decode_packR (f7 : BitVec 7) (rs2 rs1 : RegIdx) (f3 : BitVec 3) (rd : RegIdx) :
    decode (packR f7 rs2 rs1 f3 rd opReg) = decodeReg (packR f7 rs2 rs1 f3 rd opReg) :=
  decode_of_opReg (opcodeOf_packR ..)

theorem decode_packI (imm : BitVec 12) (rs1 : RegIdx) (f3 : BitVec 3) (rd : RegIdx) :
    decode (packI imm rs1 f3 rd opImm) = decodeImm (packI imm rs1 f3 rd opImm) :=
  decode_of_opImm (opcodeOf_packI ..)

/-- The shift form: the amount stands in the `rs2` field, the upper field in `funct7` (30_encoding.md R84). -/
theorem decode_packShift (sh : BitVec 5) (rs1 : RegIdx) (f3 : BitVec 3) (rd : RegIdx) :
    decode (packI (0b0000000#7 ++ sh) rs1 f3 rd opImm) = decodeImm (packR 0b0000000#7 sh.toFin rs1 f3 rd opImm) := by
  rw [packI_shamt, decode_of_opImm (opcodeOf_packR ..)]

theorem shamtOf_packR (f7 : BitVec 7) (sh : BitVec 5) (rs1 : RegIdx) (f3 : BitVec 3) (rd : RegIdx) (op : BitVec 7) :
    shamtOf (packR f7 sh.toFin rs1 f3 rd op) = sh := rs2Bits_packR ..

theorem decode_packB (off : BitVec 13) (rs2 rs1 : RegIdx) (f3 : BitVec 3) :
    decode (packB off rs2 rs1 f3 opBranch) = decodeBranch (packB off rs2 rs1 f3 opBranch) :=
  decode_of_opBranch (opcodeOf_packB ..)

/-- The word of any instruction decodes to it, without the bits the word does not store. -/
theorem decode_encode (i : Instr) : decode (encode i) = .ok (truncateUnstored i) := by
  cases i with
  | add rd rs1 rs2 => simp [encode, truncateUnstored, decode_packR, decodeReg]
  | sub rd rs1 rs2 => simp [encode, truncateUnstored, decode_packR, decodeReg]
  | slt rd rs1 rs2 => simp [encode, truncateUnstored, decode_packR, decodeReg]
  | xor rd rs1 rs2 => simp [encode, truncateUnstored, decode_packR, decodeReg]
  | srl rd rs1 rs2 => simp [encode, truncateUnstored, decode_packR, decodeReg]
  | or rd rs1 rs2 => simp [encode, truncateUnstored, decode_packR, decodeReg]
  | and rd rs1 rs2 => simp [encode, truncateUnstored, decode_packR, decodeReg]
  | addi rd rs1 imm => simp [encode, truncateUnstored, decode_packI, decodeImm]
  | slli rd rs1 shamt => simp [encode, truncateUnstored, decode_packShift, decodeImm, shamtOf_packR]
  | sltiu rd rs1 imm => simp [encode, truncateUnstored, decode_packI, decodeImm]
  | srli rd rs1 shamt => simp [encode, truncateUnstored, decode_packShift, decodeImm, shamtOf_packR]
  | lw rd rs1 imm => simp [encode, truncateUnstored, decode_of_opLoad, decodeOne]
  | jalr rd rs1 imm => simp [encode, truncateUnstored, decode_of_opJalr, decodeOne]
  | sw rs2 rs1 imm => simp [encode, truncateUnstored, decode_of_opStore, decodeOne]
  | beq rs1 rs2 off => simp [encode, truncateUnstored, decode_packB, decodeBranch]
  | bne rs1 rs2 off => simp [encode, truncateUnstored, decode_packB, decodeBranch]
  | lui rd val => simp [encode, truncateUnstored, decode_of_opLui]
  | auipc rd val => simp [encode, truncateUnstored, decode_of_opAuipc]
  | jal rd off => simp [encode, truncateUnstored, decode_of_opJal]
  | rst => decide
  | halt => decide

/-! ### A well-formed instruction has no unstored bit -/

/-- A vector whose low bits are 0 is its high bits over zeros. -/
theorem high_append_zero {n m : Nat} {x : BitVec (n + m)} (h : x.extractLsb' 0 m = 0#m) :
    x.extractLsb' m n ++ 0#m = x := by
  rw [← h, BitVec.extractLsb'_append_extractLsb'_eq_extractLsb' (by omega)]
  simp

theorem lowBit_eq_zero {n : Nat} {x : BitVec n} (h : (!x.getLsbD 0) = true) : x.extractLsb' 0 1 = 0#1 := by
  apply BitVec.eq_of_getLsbD_eq
  intro i hi
  obtain rfl : i = 0 := by omega
  simpa using h

theorem truncateUnstored_of_wellFormed {i : Instr} (h : i.wellFormed = true) : truncateUnstored i = i := by
  cases i with
  | beq rs1 rs2 off => exact congrArg (Instr.beq rs1 rs2) (high_append_zero (lowBit_eq_zero h))
  | bne rs1 rs2 off => exact congrArg (Instr.bne rs1 rs2) (high_append_zero (lowBit_eq_zero h))
  | jal rd off => exact congrArg (Instr.jal rd) (high_append_zero (lowBit_eq_zero h))
  | lui rd val => exact congrArg (Instr.lui rd) (high_append_zero (by simpa [Instr.wellFormed, upperOnly] using h))
  | auipc rd val => exact congrArg (Instr.auipc rd) (high_append_zero (by simpa [Instr.wellFormed, upperOnly] using h))
  | _ => rfl

/-- Settles O3: the word decodes to the instruction without its unstored bits, of which a well-formed one has none. -/
theorem decodeOfEncodeIsIdentity : Obligations.DecodeOfEncodeIsIdentity := by
  intro i h
  rw [decode_encode, truncateUnstored_of_wellFormed h]

/-! ### A word that decodes is packed from its fields -/

section
variable {w : Word} {i : Instr} {f7 : BitVec 7} {f3 : BitVec 3} {op : BitVec 7}

theorem packR_of_fields (h7 : funct7Of w = f7) (h3 : funct3Of w = f3) (hop : opcodeOf w = op) :
    packR f7 (rs2Of w) (rs1Of w) f3 (rdOf w) op = w := by
  subst h7 h3 hop; exact packR_fields w

theorem packI_of_fields (h3 : funct3Of w = f3) (hop : opcodeOf w = op) :
    packI (immIOf w) (rs1Of w) f3 (rdOf w) op = w := by
  subst h3 hop; exact packI_fields w

theorem packShift_of_fields (h7 : funct7Of w = f7) (h3 : funct3Of w = f3) (hop : opcodeOf w = op) :
    packI (f7 ++ shamtOf w) (rs1Of w) f3 (rdOf w) op = w :=
  (packI_shamt ..).trans (packR_of_fields h7 h3 hop)

theorem packS_of_fields (h3 : funct3Of w = f3) (hop : opcodeOf w = op) :
    packS (immSOf w) (rs2Of w) (rs1Of w) f3 op = w := by
  subst h3 hop; exact packS_fields w

theorem packB_of_fields (h3 : funct3Of w = f3) (hop : opcodeOf w = op) :
    packB (immBOf w) (rs2Of w) (rs1Of w) f3 op = w := by
  subst h3 hop; exact packB_fields w

theorem packU_of_fields (hop : opcodeOf w = op) : packU (immUOf w) (rdOf w) op = w := by
  subst hop; exact packU_fields w

theorem packJ_of_fields (hop : opcodeOf w = op) : packJ (immJOf w) (rdOf w) op = w := by
  subst hop; exact packJ_fields w

theorem immBOf_wellFormed (w : Word) : (!(immBOf w).getLsbD 0) = true := by rw [immBOf_bit0]; rfl

theorem immJOf_wellFormed (w : Word) : (!(immJOf w).getLsbD 0) = true := by rw [immJOf_bit0]; rfl

theorem immUOf_wellFormed (w : Word) : upperOnly (immUOf w) = true :=
  beq_iff_eq.mpr BitVec.extractLsb'_append_eq_right

/-- The word is that of the instruction, which is well formed. -/
def IsWordOf (w : Word) (i : Instr) : Prop := encode i = w ∧ i.wellFormed = true

theorem isWordOf_of_decodeReg (hop : opcodeOf w = opReg) (h : decodeReg w = .ok i) : IsWordOf w i := by
  unfold decodeReg at h
  split at h
  case isTrue h3 =>
    split at h
    case isTrue h7 => cases h; exact ⟨packR_of_fields h7 h3 hop, rfl⟩
    split at h
    case isTrue h7 => cases h; exact ⟨packR_of_fields h7 h3 hop, rfl⟩
    cases h
  case isFalse h0 =>
  split at h
  case isTrue => cases h
  case isFalse h13 =>
  split at h
  case isTrue => cases h
  case isFalse h7' =>
  have h7 := not_not.mp h7'
  split at h
  case isTrue h3 => cases h; exact ⟨packR_of_fields h7 h3 hop, rfl⟩
  case isFalse h2 =>
  split at h
  case isTrue h3 => cases h; exact ⟨packR_of_fields h7 h3 hop, rfl⟩
  case isFalse h4 =>
  split at h
  case isTrue h3 => cases h; exact ⟨packR_of_fields h7 h3 hop, rfl⟩
  case isFalse h5 =>
  split at h
  case isTrue h3 => cases h; exact ⟨packR_of_fields h7 h3 hop, rfl⟩
  case isFalse h6 =>
  have h3 : funct3Of w = 0b111#3 := by bv_omega
  cases h; exact ⟨packR_of_fields h7 h3 hop, rfl⟩

theorem isWordOf_of_decodeImm (hop : opcodeOf w = opImm) (h : decodeImm w = .ok i) : IsWordOf w i := by
  unfold decodeImm at h
  split at h
  case isTrue h3 => cases h; exact ⟨packI_of_fields h3 hop, rfl⟩
  split at h
  case isTrue h3 => cases h; exact ⟨packI_of_fields h3 hop, rfl⟩
  split at h
  case isTrue h3 =>
    split at h
    case isTrue h7 => cases h; exact ⟨packShift_of_fields h7 h3 hop, rfl⟩
    cases h
  split at h
  case isTrue h3 =>
    split at h
    case isTrue h7 => cases h; exact ⟨packShift_of_fields h7 h3 hop, rfl⟩
    cases h
  cases h

theorem isWordOf_of_decodeBranch (hop : opcodeOf w = opBranch) (h : decodeBranch w = .ok i) : IsWordOf w i := by
  unfold decodeBranch at h
  split at h
  case isTrue h3 => cases h; exact ⟨packB_of_fields h3 hop, immBOf_wellFormed w⟩
  split at h
  case isTrue h3 => cases h; exact ⟨packB_of_fields h3 hop, immBOf_wellFormed w⟩
  cases h

theorem decodeOne_ok {j : Instr} : decodeOne w f3 j = .ok i ↔ funct3Of w = f3 ∧ i = j := by
  unfold decodeOne
  split
  · next h3 => simp [h3, eq_comm]
  · next h3 => simp [h3]

/-- Format by format, a word that decodes is packed from its own fields. -/
theorem isWordOf_of_decodeFormat (h : decodeFormat w = .ok i) : IsWordOf w i := by
  unfold decodeFormat at h
  split at h
  case isTrue hop => exact isWordOf_of_decodeReg hop h
  split at h
  case isTrue hop => exact isWordOf_of_decodeImm hop h
  split at h
  case isTrue hop => obtain ⟨h3, rfl⟩ := decodeOne_ok.mp h; exact ⟨packI_of_fields h3 hop, rfl⟩
  split at h
  case isTrue hop => obtain ⟨h3, rfl⟩ := decodeOne_ok.mp h; exact ⟨packI_of_fields h3 hop, rfl⟩
  split at h
  case isTrue hop => obtain ⟨h3, rfl⟩ := decodeOne_ok.mp h; exact ⟨packS_of_fields h3 hop, rfl⟩
  split at h
  case isTrue hop => exact isWordOf_of_decodeBranch hop h
  split at h
  case isTrue hop => cases h; exact ⟨packU_of_fields hop, immUOf_wellFormed w⟩
  split at h
  case isTrue hop => cases h; exact ⟨packU_of_fields hop, immUOf_wellFormed w⟩
  split at h
  case isTrue hop => cases h; exact ⟨packJ_of_fields hop, immJOf_wellFormed w⟩
  cases h

theorem isWordOf_of_decode (h : decode w = .ok i) : IsWordOf w i := by
  unfold decode at h
  split at h
  case isTrue hw => cases h; exact ⟨hw.symm, rfl⟩
  split at h
  case isTrue hw => cases h; exact ⟨hw.symm, rfl⟩
  exact isWordOf_of_decodeFormat h

end

/-- Settles O5: past the two whole words, the decoder takes the operands from the fields the packer puts back. -/
theorem encodeOfDecodeIsIdentity : Obligations.EncodeOfDecodeIsIdentity := fun _ _ => isWordOf_of_decode

/-- Settles O4: the decoded instruction is the one without the unstored bits, and what decodes from a word is well formed and
has that word. -/
theorem decodeOfEncodeDropsUnstoredBits : Obligations.DecodeOfEncodeDropsUnstoredBits := by
  intro i
  obtain ⟨hword, hwf⟩ := isWordOf_of_decode (decode_encode i)
  exact ⟨decode_encode i, hwf, hword⟩

end Sys2Proof
end

section
/-!
PROOF. The opcode table (30_encoding.md R86): a word that decodes is packed, so it carries the fixed bits of its row; a word
that carries the fixed bits of a row is packed from its fields, so it decodes.
-/

namespace Sys2Proof

open Laws

/-- Every instruction's word matches the row of its mnemonic. -/
theorem encodesToRow (i : Instr) : EncodesToRow.Statement i := by
  cases i with
  | add rd rs1 rs2 => exact EncodesToRow.add ..
  | sub rd rs1 rs2 => exact EncodesToRow.sub ..
  | slt rd rs1 rs2 => exact EncodesToRow.slt ..
  | xor rd rs1 rs2 => exact EncodesToRow.xor ..
  | srl rd rs1 rs2 => exact EncodesToRow.srl ..
  | or rd rs1 rs2 => exact EncodesToRow.or ..
  | and rd rs1 rs2 => exact EncodesToRow.and ..
  | addi rd rs1 imm => exact EncodesToRow.addi ..
  | slli rd rs1 shamt => exact EncodesToRow.slli ..
  | sltiu rd rs1 imm => exact EncodesToRow.sltiu ..
  | srli rd rs1 shamt => exact EncodesToRow.srli ..
  | lw rd rs1 imm => exact EncodesToRow.lw ..
  | jalr rd rs1 imm => exact EncodesToRow.jalr ..
  | sw rs2 rs1 imm => exact EncodesToRow.sw ..
  | beq rs1 rs2 off => exact EncodesToRow.beq ..
  | bne rs1 rs2 off => exact EncodesToRow.bne ..
  | lui rd val => exact EncodesToRow.lui ..
  | auipc rd val => exact EncodesToRow.auipc ..
  | jal rd off => exact EncodesToRow.jal ..
  | rst => exact EncodesToRow.rst
  | halt => exact EncodesToRow.halt

theorem mem_of_rowOf {m : Mnem} {row : OpcodeRow} (h : rowOf m = some row) : row ∈ opcodeTable ∧ row.mnem = m :=
  ⟨List.mem_of_find?_eq_some h, by simpa using List.find?_some h⟩

theorem row_of_decode {w : Word} {i : Instr} (h : decode w = .ok i) :
    ∃ row ∈ opcodeTable, row.mnem = i.mnem ∧ w &&& row.mask = row.bits := by
  obtain ⟨hword, -⟩ := isWordOf_of_decode h
  obtain ⟨row, hrow, hbits⟩ := encodesToRow i
  obtain ⟨hmem, hmnem⟩ := mem_of_rowOf hrow
  exact ⟨row, hmem, hmnem, hword ▸ hbits⟩

/-! ### A word with the fixed bits of a packer is packed from its fields -/

section
variable {w : Word} {f7 : BitVec 7} {f3 : BitVec 3} {op : BitVec 7}

theorem packR_of_match (h : w &&& 0xFE00707F#32 = packR f7 0 0 f3 0 op) :
    packR f7 (rs2Of w) (rs1Of w) f3 (rdOf w) op = w := by
  have hfix : packR (funct7Of w) 0 0 (funct3Of w) 0 (opcodeOf w) = packR f7 0 0 f3 0 op := by
    rw [← h, ← packR_and_mask (funct7Of w) (funct3Of w) (opcodeOf w) (rdOf w) (rs1Of w) (rs2Of w), packR_fields]
  exact packR_of_fields (by simpa using congrArg funct7Of hfix) (by simpa using congrArg funct3Of hfix)
    (by simpa using congrArg opcodeOf hfix)

theorem packI_of_match (h : w &&& 0x0000707F#32 = packI 0 0 f3 0 op) :
    packI (immIOf w) (rs1Of w) f3 (rdOf w) op = w := by
  have hfix : packI 0 0 (funct3Of w) 0 (opcodeOf w) = packI 0 0 f3 0 op := by
    rw [← h, ← packI_and_mask (funct3Of w) (opcodeOf w) (rdOf w) (rs1Of w) (immIOf w), packI_fields]
  exact packI_of_fields (by simpa using congrArg funct3Of hfix) (by simpa using congrArg opcodeOf hfix)

theorem packS_of_match (h : w &&& 0x0000707F#32 = packS 0 0 0 f3 op) :
    packS (immSOf w) (rs2Of w) (rs1Of w) f3 op = w := by
  have hfix : packS 0 0 0 (funct3Of w) (opcodeOf w) = packS 0 0 0 f3 op := by
    rw [← h, ← packS_and_mask (funct3Of w) (opcodeOf w) (rs1Of w) (rs2Of w) (immSOf w), packS_fields]
  exact packS_of_fields (by simpa using congrArg funct3Of hfix) (by simpa using congrArg opcodeOf hfix)

theorem packB_of_match (h : w &&& 0x0000707F#32 = packB 0 0 0 f3 op) :
    packB (immBOf w) (rs2Of w) (rs1Of w) f3 op = w := by
  have hfix : packB 0 0 0 (funct3Of w) (opcodeOf w) = packB 0 0 0 f3 op := by
    rw [← h, ← packB_and_mask (funct3Of w) (opcodeOf w) (rs1Of w) (rs2Of w) (immBOf w), packB_fields]
  exact packB_of_fields (by simpa using congrArg funct3Of hfix) (by simpa using congrArg opcodeOf hfix)

theorem packU_of_match (h : w &&& 0x0000007F#32 = packU 0 0 op) : packU (immUOf w) (rdOf w) op = w := by
  have hfix : packU 0 0 (opcodeOf w) = packU 0 0 op := by
    rw [← h, ← packU_and_mask (opcodeOf w) (rdOf w) (immUOf w), packU_fields]
  exact packU_of_fields (by simpa using congrArg opcodeOf hfix)

theorem packJ_of_match (h : w &&& 0x0000007F#32 = packJ 0 0 op) : packJ (immJOf w) (rdOf w) op = w := by
  have hfix : packJ 0 0 (opcodeOf w) = packJ 0 0 op := by
    rw [← h, ← packJ_and_mask (opcodeOf w) (rdOf w) (immJOf w), packJ_fields]
  exact packJ_of_fields (by simpa using congrArg opcodeOf hfix)

end

@[simp] theorem truncateUnstored_mnem (i : Instr) : (truncateUnstored i).mnem = i.mnem := by cases i <;> rfl

theorem decodes_of_encode {w : Word} (i : Instr) (h : encode i = w) : ∃ j, decode w = .ok j ∧ j.mnem = i.mnem :=
  ⟨truncateUnstored i, h ▸ decode_encode i, truncateUnstored_mnem i⟩

/-- A whole-word row matches one word. -/
theorem eq_of_match_all {w bits : Word} (h : w &&& 0xFFFFFFFF#32 = bits) : bits = w := by
  rw [← h, show 0xFFFFFFFF#32 = BitVec.allOnes 32 from rfl, BitVec.and_allOnes]

/-- A word that matches a row is packed with the row's fixed bits from its own fields. -/
theorem decode_of_row (w : Word) :
    ∀ row ∈ opcodeTable, w &&& row.mask = row.bits → ∃ i, decode w = .ok i ∧ i.mnem = row.mnem := by
  simp only [opcodeTable, opcodeRowsR, opcodeRowsI, opcodeRowsRest, List.cons_append, List.nil_append,
    List.forall_mem_cons]
  refine ⟨?add, ?sub, ?slt, ?xor, ?srl, ?or, ?and, ?addi, ?slli, ?sltiu, ?srli, ?lw, ?jalr, ?sw, ?beq, ?bne, ?lui, ?auipc,
    ?jal, ?rst, ?halt, nofun⟩
  case add => exact fun h => decodes_of_encode (.add ..) (packR_of_match (h.trans (by decide)))
  case sub => exact fun h => decodes_of_encode (.sub ..) (packR_of_match (h.trans (by decide)))
  case slt => exact fun h => decodes_of_encode (.slt ..) (packR_of_match (h.trans (by decide)))
  case xor => exact fun h => decodes_of_encode (.xor ..) (packR_of_match (h.trans (by decide)))
  case srl => exact fun h => decodes_of_encode (.srl ..) (packR_of_match (h.trans (by decide)))
  case or => exact fun h => decodes_of_encode (.or ..) (packR_of_match (h.trans (by decide)))
  case and => exact fun h => decodes_of_encode (.and ..) (packR_of_match (h.trans (by decide)))
  case addi => exact fun h => decodes_of_encode (.addi ..) (packI_of_match (h.trans (by decide)))
  case slli =>
    exact fun h => decodes_of_encode (.slli _ _ (shamtOf w)) ((packI_shamt ..).trans (packR_of_match (h.trans (by decide))))
  case sltiu => exact fun h => decodes_of_encode (.sltiu ..) (packI_of_match (h.trans (by decide)))
  case srli =>
    exact fun h => decodes_of_encode (.srli _ _ (shamtOf w)) ((packI_shamt ..).trans (packR_of_match (h.trans (by decide))))
  case lw => exact fun h => decodes_of_encode (.lw ..) (packI_of_match (h.trans (by decide)))
  case jalr => exact fun h => decodes_of_encode (.jalr ..) (packI_of_match (h.trans (by decide)))
  case sw => exact fun h => decodes_of_encode (.sw ..) (packS_of_match (h.trans (by decide)))
  case beq => exact fun h => decodes_of_encode (.beq ..) (packB_of_match (h.trans (by decide)))
  case bne => exact fun h => decodes_of_encode (.bne ..) (packB_of_match (h.trans (by decide)))
  case lui => exact fun h => decodes_of_encode (.lui ..) (packU_of_match (h.trans (by decide)))
  case auipc => exact fun h => decodes_of_encode (.auipc ..) (packU_of_match (h.trans (by decide)))
  case jal => exact fun h => decodes_of_encode (.jal ..) (packJ_of_match (h.trans (by decide)))
  case rst => exact fun h => decodes_of_encode .rst (eq_of_match_all h)
  case halt => exact fun h => decodes_of_encode .halt (eq_of_match_all h)

/-- Settles O6: a decoded word carries the fixed bits of its row, and a word with the fixed bits of a row decodes. -/
theorem decodeAgreesWithOpcodeTable : Obligations.DecodeAgreesWithOpcodeTable :=
  ⟨fun _ _ => row_of_decode, decode_of_row⟩

/-- A mnemonic has one row. -/
theorem row_eq_of_mnem_eq : ∀ row ∈ opcodeTable, ∀ row' ∈ opcodeTable, row.mnem = row'.mnem → row = row' := by decide

/-- Settles O7: a word that matches two rows decodes to one instruction, whose mnemonic both rows have. -/
theorem opcodeRowsAreDisjoint : Obligations.OpcodeRowsAreDisjoint := by
  intro w row hrow row' hrow' h h'
  obtain ⟨i, hi, hm⟩ := decode_of_row w row hrow h
  obtain ⟨i', hi', hm'⟩ := decode_of_row w row' hrow' h'
  obtain rfl : i = i' := Except.ok.inj (hi.symm.trans hi')
  exact row_eq_of_mnem_eq row hrow row' hrow' (hm.symm.trans hm')

/-- Settles O8: each word by running the decoder. -/
theorem sampleWordsDecode : Obligations.SampleWordsDecode := by
  unfold Obligations.SampleWordsDecode
  decide

end Sys2Proof
end

section
/-!
PROOF. The immediates of a decoded word are slices of it (30_encoding.md R79 to R85), because the word is packed from them.
-/

namespace Sys2Proof

open Machine

section
variable {w : Word}

theorem immI_of_packI {imm : BitVec 12} {rs1 rd : RegIdx} {f3 : BitVec 3} {op : BitVec 7}
    (h : packI imm rs1 f3 rd op = w) : imm = w.extractLsb' 20 12 := by
  rw [← h]; exact (immIOf_packI ..).symm

theorem immS_of_decode {rs2 rs1 : RegIdx} {imm : BitVec 12} (h : decode w = .ok (.sw rs2 rs1 imm)) : imm = immSOf w := by
  obtain ⟨rfl, -⟩ := isWordOf_of_decode h
  exact (immSOf_packS ..).symm

/-- A branch offset is the unpacked B immediate, whose bit 0 is 0. -/
theorem immB_of_packB {off : BitVec 13} {rs2 rs1 : RegIdx} {f3 : BitVec 3} {op : BitVec 7}
    (h : packB off rs2 rs1 f3 op = w) (hwf : (!off.getLsbD 0) = true) : off = immBOf w := by
  rw [← h, immBOf_packB]; exact (high_append_zero (lowBit_eq_zero hwf)).symm

theorem immB_of_decode {rs1 rs2 : RegIdx} {off : BitVec 13}
    (h : decode w = .ok (.beq rs1 rs2 off) ∨ decode w = .ok (.bne rs1 rs2 off)) : off = immBOf w := by
  rcases h with h | h
  · obtain ⟨hword, hwf⟩ := isWordOf_of_decode h; exact immB_of_packB hword hwf
  · obtain ⟨hword, hwf⟩ := isWordOf_of_decode h; exact immB_of_packB hword hwf

theorem immU_of_packU {val : BitVec 32} {rd : RegIdx} {op : BitVec 7} (h : packU val rd op = w)
    (hwf : upperOnly val = true) : val = immUOf w := by
  rw [← h, immUOf_packU]; exact (high_append_zero (beq_iff_eq.mp hwf)).symm

theorem immU_of_decode {rd : RegIdx} {val : BitVec 32}
    (h : decode w = .ok (.lui rd val) ∨ decode w = .ok (.auipc rd val)) : val = immUOf w := by
  rcases h with h | h
  · obtain ⟨hword, hwf⟩ := isWordOf_of_decode h; exact immU_of_packU hword hwf
  · obtain ⟨hword, hwf⟩ := isWordOf_of_decode h; exact immU_of_packU hword hwf

theorem immJ_of_decode {rd : RegIdx} {off : BitVec 21} (h : decode w = .ok (.jal rd off)) : off = immJOf w := by
  obtain ⟨rfl, hwf⟩ := isWordOf_of_decode h
  exact ((immJOf_packJ ..).trans (high_append_zero (lowBit_eq_zero hwf))).symm

theorem shamt_of_packI {sh : BitVec 5} {rs1 rd : RegIdx} {f3 : BitVec 3} {op : BitVec 7}
    (h : packI (0#7 ++ sh) rs1 f3 rd op = w) : sh = w.extractLsb' 20 5 ∧ w.extractLsb' 25 7 = 0#7 := by
  rw [← h, packI_shamt]; exact ⟨(rs2Bits_packR ..).symm, funct7Of_packR ..⟩

end

theorem sext12_bounds (imm : BitVec 12) : -2048 ≤ (sext12 imm).toInt ∧ (sext12 imm).toInt ≤ 2047 := by
  rw [sext12, BitVec.toInt_signExtend_of_le (by decide)]; exact toInt_bounds imm

theorem sext13_bounds {off : BitVec 13} (h : off.getLsbD 0 = false) :
    -4096 ≤ (sext13 off).toInt ∧ (sext13 off).toInt ≤ 4094 ∧ (sext13 off).toInt % 2 = 0 := by
  rw [sext13, BitVec.toInt_signExtend_of_le (by decide)]
  have hbounds : -4096 ≤ off.toInt ∧ off.toInt ≤ 4095 := toInt_bounds off
  have heven := toInt_even off (by decide) h
  omega

theorem sext21_bounds {off : BitVec 21} (h : off.getLsbD 0 = false) :
    -1048576 ≤ (sext21 off).toInt ∧ (sext21 off).toInt ≤ 1048574 ∧ (sext21 off).toInt % 2 = 0 := by
  rw [sext21, BitVec.toInt_signExtend_of_le (by decide)]
  have hbounds : -1048576 ≤ off.toInt ∧ off.toInt ≤ 1048575 := toInt_bounds off
  have heven := toInt_even off (by decide) h
  omega

/-- Settles O9: the immediate of each format as the slice its packer stores, the ranges from the widths and the forced bit 0. -/
theorem executorImmediatesAreSlices : Obligations.ExecutorImmediatesAreSlices := by
  refine ⟨?I, ?S, ?B, ?U, ?J, ?shift, ?sltiu⟩
  case I =>
    intro w rd rs1 imm h
    have himm : imm = w.extractLsb' 20 12 := by
      rcases h with h | h | h
      · exact immI_of_packI (isWordOf_of_decode h).1
      · exact immI_of_packI (isWordOf_of_decode h).1
      · exact immI_of_packI (isWordOf_of_decode h).1
    exact ⟨congrArg sext12 himm, sext12_bounds imm⟩
  case S => exact fun w _ _ imm h => ⟨congrArg sext12 (immS_of_decode h), sext12_bounds imm⟩
  case B =>
    intro w rs1 rs2 off h
    obtain rfl := immB_of_decode h
    obtain ⟨hlo, hhi, heven⟩ := sext13_bounds (immBOf_bit0 w)
    exact ⟨rfl, hlo, hhi, heven, fun _ => rfl⟩
  case U =>
    intro w rd val h
    obtain rfl := immU_of_decode h
    exact ⟨rfl, BitVec.extractLsb'_append_eq_right⟩
  case J =>
    intro w rd off h
    obtain rfl := immJ_of_decode h
    obtain ⟨hlo, hhi, heven⟩ := sext21_bounds (immJOf_bit0 w)
    exact ⟨rfl, hlo, hhi, heven, fun _ => rfl⟩
  case shift =>
    intro w rd rs1 shamt h
    obtain ⟨hsh, hupper⟩ : shamt = w.extractLsb' 20 5 ∧ w.extractLsb' 25 7 = 0#7 := by
      rcases h with h | h
      · exact shamt_of_packI (isWordOf_of_decode h).1
      · exact shamt_of_packI (isWordOf_of_decode h).1
    exact ⟨hsh, hupper, by omega⟩
  case sltiu =>
    intro w rd rs1 imm h
    have himm : imm = w.extractLsb' 20 12 := immI_of_packI (isWordOf_of_decode h).1
    exact ⟨himm, congrArg sltiuImm himm⟩

end Sys2Proof
end

section
/-!
PROOF. The unknown words (30_encoding.md R88): under each opcode, the fields on which its part of the decoder fails.
-/

namespace Sys2Proof

theorem funct3_cases (f3 : BitVec 3) :
    f3 = 0#3 ∨ f3 = 1#3 ∨ f3 = 2#3 ∨ f3 = 3#3 ∨ f3 = 4#3 ∨ f3 = 5#3 ∨ f3 = 6#3 ∨ f3 = 7#3 := by revert f3; decide

/-- A part of the decoder that tests one condition fails exactly without it. -/
theorem ite_fails_iff {c : Prop} [Decidable c] {i : Instr} {r : DecodeReject} :
    (∃ e, (if c then .ok i else .error r : Except DecodeReject Instr) = .error e) ↔ ¬c := by
  by_cases h : c <;> simp [h]

theorem decodeReg_fails_iff (w : Word) :
    (∃ e, decodeReg w = .error e) ↔ (funct3Of w, funct7Of w) ∉ [(0b000#3, 0b0000000#7), (0b000#3, 0b0100000#7),
      (0b010#3, 0b0000000#7), (0b100#3, 0b0000000#7), (0b101#3, 0b0000000#7), (0b110#3, 0b0000000#7),
      (0b111#3, 0b0000000#7)] := by
  unfold decodeReg
  rcases funct3_cases (funct3Of w) with h3 | h3 | h3 | h3 | h3 | h3 | h3 | h3
  case inl => by_cases h7 : funct7Of w = 0b0000000#7 <;> simp [h3, h7, ite_fails_iff]
  all_goals simp [h3, ite_fails_iff]

theorem decodeImm_fails_iff (w : Word) :
    (∃ e, decodeImm w = .error e) ↔ funct3Of w ∈ [0b010#3, 0b100#3, 0b110#3, 0b111#3] ∨
      (funct3Of w ∈ [0b001#3, 0b101#3] ∧ funct7Of w ≠ 0b0000000#7) := by
  unfold decodeImm
  rcases funct3_cases (funct3Of w) with h3 | h3 | h3 | h3 | h3 | h3 | h3 | h3 <;> simp [h3, ite_fails_iff]

theorem decodeBranch_fails_iff (w : Word) :
    (∃ e, decodeBranch w = .error e) ↔ funct3Of w ∉ [0b000#3, 0b001#3] := by
  unfold decodeBranch
  rcases funct3_cases (funct3Of w) with h3 | h3 | h3 | h3 | h3 | h3 | h3 | h3 <;> simp [h3]

theorem decodeOne_fails_iff (w : Word) (f3 : BitVec 3) (i : Instr) :
    (∃ e, decodeOne w f3 i = .error e) ↔ funct3Of w ≠ f3 := ite_fails_iff

theorem ok_fails_iff (i : Instr) : (∃ e, (.ok i : Except DecodeReject Instr) = .error e) ↔ False := by simp

/-- Under an opcode of neither whole word, a word runs as unknown exactly when its part of the decoder fails. -/
theorem unknown_iff {w : Word} {op : BitVec 7} {d : Except DecodeReject Instr} {fails : Prop} (hop : opcodeOf w = op)
    (hhalt : op ≠ 0b1111111#7) (hrst : op ≠ 0#7) (hd : decode w = d) (hfails : (∃ e, d = .error e) ↔ fails) :
    ((∃ e, decode w = .error e) ∨ decode w = .ok .rst) ↔ w ≠ 0xFFFFFFFF#32 ∧ fails := by
  have hw : w ≠ 0xFFFFFFFF#32 := by
    rintro rfl; exact hhalt (hop.symm.trans opcodeOf_haltWord)
  have hnot : decode w ≠ .ok .rst := fun h => by
    obtain ⟨rfl, -⟩ := isWordOf_of_decode h
    exact hrst (hop.symm.trans opcodeOf_rstWord)
  rw [or_iff_left hnot, and_iff_right hw, hd, hfails]

/-- The opcodes that select a format (30_encoding.md R78). -/
def knownOpcodes : List (BitVec 7) := [opReg, opImm, opLoad, opJalr, opStore, opBranch, opLui, opAuipc, opJal]

theorem decodeFormat_of_unknown {w : Word} (h : opcodeOf w ∉ knownOpcodes) :
    decodeFormat w = .error (.unknownOpcode (opcodeOf w)) := by
  simp only [knownOpcodes, List.mem_cons, List.not_mem_nil, or_false, not_or] at h
  obtain ⟨hReg, hImm, hLoad, hJalr, hStore, hBranch, hLui, hAuipc, hJal⟩ := h
  simp only [decodeFormat, hReg, hImm, hLoad, hJalr, hStore, hBranch, hLui, hAuipc, hJal, if_false]

/-- Under any other opcode every word but the halt word runs as unknown. -/
theorem unknown_of_unknownOpcode {w : Word} (h : opcodeOf w ∉ knownOpcodes) :
    ((∃ e, decode w = .error e) ∨ decode w = .ok .rst) ↔ w ≠ 0xFFFFFFFF#32 := by
  unfold decode
  rw [decodeFormat_of_unknown h]
  split
  case isTrue hhalt => simp [hhalt, Config.haltWord]
  case isFalse hhalt =>
    have hw : w ≠ 0xFFFFFFFF#32 := hhalt
    split <;> simp [hw]

/-- Settles O10: opcode by opcode, the clauses of the list are where that opcode's part of the decoder fails. -/
theorem unknownWordsAreTheList : Obligations.UnknownWordsAreTheList := by
  intro w op f3 f7
  by_cases hknown : op ∈ knownOpcodes
  case neg =>
    rw [unknown_of_unknownOpcode hknown]
    exact ⟨fun h => ⟨h, .inl hknown⟩, And.left⟩
  simp only [knownOpcodes, List.mem_cons, List.not_mem_nil, or_false] at hknown
  rcases hknown with h | h | h | h | h | h | h | h | h
  · exact (unknown_iff h (by decide) (by decide) (decode_of_opReg h) (decodeReg_fails_iff w)).trans
      (and_congr_right' (by simp [h, opReg, f3, f7, funct3Of, funct7Of]))
  · exact (unknown_iff h (by decide) (by decide) (decode_of_opImm h) (decodeImm_fails_iff w)).trans
      (and_congr_right' (by simp [h, opImm, f3, f7, funct3Of, funct7Of]))
  · exact (unknown_iff h (by decide) (by decide) (decode_of_opLoad h) (decodeOne_fails_iff ..)).trans
      (and_congr_right' (by simp [h, opLoad, f3, funct3Of]))
  · exact (unknown_iff h (by decide) (by decide) (decode_of_opJalr h) (decodeOne_fails_iff ..)).trans
      (and_congr_right' (by simp [h, opJalr, f3, funct3Of]))
  · exact (unknown_iff h (by decide) (by decide) (decode_of_opStore h) (decodeOne_fails_iff ..)).trans
      (and_congr_right' (by simp [h, opStore, f3, funct3Of]))
  · exact (unknown_iff h (by decide) (by decide) (decode_of_opBranch h) (decodeBranch_fails_iff w)).trans
      (and_congr_right' (by simp [h, opBranch, f3, funct3Of]))
  · exact (unknown_iff h (by decide) (by decide) (decode_of_opLui h) (ok_fails_iff _)).trans
      (and_congr_right' (by simp [h, opLui]))
  · exact (unknown_iff h (by decide) (by decide) (decode_of_opAuipc h) (ok_fails_iff _)).trans
      (and_congr_right' (by simp [h, opAuipc]))
  · exact (unknown_iff h (by decide) (by decide) (decode_of_opJal h) (ok_fails_iff _)).trans
      (and_congr_right' (by simp [h, opJal]))

end Sys2Proof
end

section
/-!
PROOF. What ENC emits (30_encoding.md R90): the operands of a mnemonic make an instruction of that mnemonic, whatever their shape,
and its word decodes to an instruction of the same mnemonic.
-/

namespace Sys2Proof.Machine

/-! ### Each operand shape makes what it is told to make -/

section
variable {symtab : List (Text × Nat)} {addr : Nat} {txt : Text} {ops : List Text} {i : Instr}

theorem except_bind_ok {ε α β : Type} {x : Except ε α} {f : α → Except ε β} {b : β} :
    (x >>= f) = .ok b ↔ ∃ a, x = .ok a ∧ f a = .ok b := by
  cases x <;> simp [except_bind]

theorem regRegReg_ok {mk : RegIdx → RegIdx → RegIdx → Instr} (h : regRegReg mk txt ops = .ok i) :
    ∃ rd rs1 rs2, i = mk rd rs1 rs2 := by
  unfold regRegReg at h
  split at h
  · simp only [except_bind_ok] at h
    obtain ⟨rd, -, rs1, -, rs2, -, h⟩ := h
    cases h; exact ⟨rd, rs1, rs2, rfl⟩
  · cases h

theorem regRegImm_ok {mk : RegIdx → RegIdx → Int → Instr} {range : Int → Except EncErrorKind Int}
    (h : regRegImm mk range symtab addr txt ops = .ok i) : ∃ rd rs1 v, i = mk rd rs1 v := by
  unfold regRegImm at h
  split at h
  · simp only [except_bind_ok] at h
    obtain ⟨rd, -, rs1, -, _, -, v, -, h⟩ := h
    cases h; exact ⟨rd, rs1, v, rfl⟩
  · cases h

theorem regMemOffset_ok {mk : RegIdx → RegIdx → Int → Instr} {kind : ImmKind}
    (h : regMemOffset mk kind symtab addr txt ops = .ok i) : ∃ r rs1 v, i = mk r rs1 v := by
  unfold regMemOffset at h
  split at h
  · simp only [except_bind_ok] at h
    obtain ⟨r, -, vr, -, v, -, h⟩ := h
    cases h; exact ⟨r, vr.2, v, rfl⟩
  · cases h

theorem regRegTarget_ok {mk : RegIdx → RegIdx → Int → Instr} (h : regRegTarget mk symtab addr txt ops = .ok i) :
    ∃ rs1 rs2 v, i = mk rs1 rs2 v := by
  unfold regRegTarget at h
  split at h
  · simp only [except_bind_ok] at h
    obtain ⟨rs1, -, rs2, -, _, -, v, -, h⟩ := h
    cases h; exact ⟨rs1, rs2, v, rfl⟩
  · cases h

theorem regValue_ok {mk : RegIdx → Int → Instr} (h : regValue mk symtab addr txt ops = .ok i) : ∃ rd v, i = mk rd v := by
  unfold regValue at h
  split at h
  · simp only [except_bind_ok] at h
    obtain ⟨rd, -, v, -, h⟩ := h
    cases h; exact ⟨rd, v, rfl⟩
  · cases h

theorem regTarget_ok {mk : RegIdx → Int → Instr} (h : regTarget mk symtab addr txt ops = .ok i) : ∃ rd v, i = mk rd v := by
  unfold regTarget at h
  split at h
  · simp only [except_bind_ok] at h
    obtain ⟨rd, -, _, -, v, -, h⟩ := h
    cases h; exact ⟨rd, v, rfl⟩
  · cases h

theorem jalrOperands_ok (h : jalrOperands symtab addr txt ops = .ok i) : ∃ rd rs1 imm, i = .jalr rd rs1 imm := by
  unfold jalrOperands at h
  split at h
  · obtain ⟨rd, rs1, v, rfl⟩ := regMemOffset_ok h; exact ⟨rd, rs1, twos12 v, rfl⟩
  · obtain ⟨rd, rs1, v, rfl⟩ := regRegImm_ok h; exact ⟨rd, rs1, twos12 v, rfl⟩

theorem noOperand_ok {j : Instr} (h : noOperand j txt ops = .ok i) : i = j := by
  unfold noOperand at h
  split at h <;> cases h
  rfl

/-- The operands of a mnemonic make an instruction of that mnemonic. -/
theorem parseOperands_mnem {m : Mnem} (h : parseOperands m symtab addr txt ops = .ok i) : i.mnem = m := by
  unfold parseOperands at h
  cases m with
  | add => obtain ⟨_, _, _, rfl⟩ := regRegReg_ok h; rfl
  | sub => obtain ⟨_, _, _, rfl⟩ := regRegReg_ok h; rfl
  | slt => obtain ⟨_, _, _, rfl⟩ := regRegReg_ok h; rfl
  | xor => obtain ⟨_, _, _, rfl⟩ := regRegReg_ok h; rfl
  | srl => obtain ⟨_, _, _, rfl⟩ := regRegReg_ok h; rfl
  | or => obtain ⟨_, _, _, rfl⟩ := regRegReg_ok h; rfl
  | and => obtain ⟨_, _, _, rfl⟩ := regRegReg_ok h; rfl
  | addi => obtain ⟨_, _, _, rfl⟩ := regRegImm_ok h; rfl
  | slli => obtain ⟨_, _, _, rfl⟩ := regRegImm_ok h; rfl
  | sltiu => obtain ⟨_, _, _, rfl⟩ := regRegImm_ok h; rfl
  | srli => obtain ⟨_, _, _, rfl⟩ := regRegImm_ok h; rfl
  | lw => obtain ⟨_, _, _, rfl⟩ := regMemOffset_ok h; rfl
  | jalr => obtain ⟨_, _, _, rfl⟩ := jalrOperands_ok h; rfl
  | sw => obtain ⟨_, _, _, rfl⟩ := regMemOffset_ok h; rfl
  | beq => obtain ⟨_, _, _, rfl⟩ := regRegTarget_ok h; rfl
  | bne => obtain ⟨_, _, _, rfl⟩ := regRegTarget_ok h; rfl
  | lui => obtain ⟨_, _, rfl⟩ := regValue_ok h; rfl
  | auipc => obtain ⟨_, _, rfl⟩ := regValue_ok h; rfl
  | jal => obtain ⟨_, _, rfl⟩ := regTarget_ok h; rfl
  | rst => obtain rfl := noOperand_ok h; rfl
  | halt => obtain rfl := noOperand_ok h; rfl

end

/-- A line that parses has a mnemonic, and is an instruction of it. -/
theorem parseLine_ok {symtab : List (Text × Nat)} {addr : Nat} {t : Text} {i : Instr}
    (h : parseLine symtab addr t = .ok i) : lookupName mnemonicNames (mnemonicText t) = some i.mnem := by
  unfold parseLine at h
  split at h
  · cases h
  · next m hm =>
    split at h
    · cases h
    · rw [hm, parseOperands_mnem h]

theorem encodeLine_ok {symtab : List (Text × Nat)} {r : InstrLine} {w : Word} (h : encodeLine symtab r = .ok w) :
    ∃ i, parseLine symtab r.addr r.text = .ok i ∧ w = encode i := by
  unfold encodeLine at h
  split at h
  · next i hi => cases h; exact ⟨i, hi, rfl⟩
  · cases h

theorem eq_halt_of_mnem {i : Instr} (h : i.mnem = .halt) : i = .halt := by cases i <;> trivial

/-- Only the halt word has the halt instruction's meaning, and only that instruction its word. -/
theorem encode_eq_haltWord_iff (i : Instr) : encode i = Config.haltWord ↔ i.mnem = .halt := by
  constructor
  · intro h
    have hdec : decode (encode i) = .ok .halt := by rw [h]; rfl
    rw [← truncateUnstored_mnem i, Except.ok.inj ((decode_encode i).symm.trans hdec)]
    rfl
  · intro h
    rw [eq_halt_of_mnem h]
    rfl

/-- Settles O57: the emitted word is that of an instruction of the line's mnemonic, and decoding keeps the mnemonic. -/
theorem emittedWordsDecodeToTheirMnemonic : Obligations.EmittedWordsDecodeToTheirMnemonic := by
  intro symtab r w h
  obtain ⟨i, hparse, rfl⟩ := encodeLine_ok h
  exact ⟨truncateUnstored i, i.mnem, decode_encode i, parseLine_ok hparse, truncateUnstored_mnem i,
    encode_eq_haltWord_iff i⟩

end Sys2Proof.Machine
end

section
/-!
PROOF. What each instruction does (42_r_type.md to 48_sentinels_unknown.md): its value as a number modulo 2^32, and the rest
from what each way to complete a step does as a whole.
-/

namespace Sys2Proof.Machine

/-! ### The values as numbers -/

theorem add_eq_ofNat (x y : Word) : x + y = BitVec.ofNat 32 (x.toNat + y.toNat) := by
  apply BitVec.eq_of_toNat_eq; simp

theorem sub_eq_ofInt (x y : Word) : x - y = BitVec.ofInt 32 (x.toNat - y.toNat) := by
  apply BitVec.eq_of_toNat_eq
  rw [BitVec.toNat_sub, BitVec.toNat_ofInt]
  omega

theorem shiftLeft_eq_ofNat (x : Word) (k : Nat) : x <<< k = BitVec.ofNat 32 (x.toNat * 2 ^ k) := by
  apply BitVec.eq_of_toNat_eq; simp [Nat.shiftLeft_eq]

theorem shiftRight_eq_ofNat (x : Word) (k : Nat) : x >>> k = BitVec.ofNat 32 (x.toNat / 2 ^ k) := by
  apply BitVec.eq_of_toNat_eq
  rw [BitVec.toNat_ushiftRight, Nat.shiftRight_eq_div_pow, BitVec.toNat_ofNat,
    Nat.mod_eq_of_lt (Nat.lt_of_le_of_lt (Nat.div_le_self ..) x.isLt)]

/-- The low 5 bits of a register shift amount (42_r_type.md R197). -/
theorem regShamt_eq (v : Word) : regShamt v = v.toNat % 32 := Nat.and_two_pow_sub_one_eq_mod v.toNat 5

theorem boolWord_decide (c : Prop) [Decidable c] : boolWord (decide c) = if c then 1#32 else 0#32 := by
  by_cases h : c <;> simp [boolWord, h]

/-! ### The ways to complete, with the next pc as a number -/

section
variable (s : State) (rd : RegIdx)

theorem writeBack_writes {v v' : Word} (hv : v = v') :
    WritesRegister s (s.writeBack rd v) rd v' (BitVec.ofNat 32 (s.pc.toNat + 4)) := by
  rw [← hv, ← nextPc_eq]; exact writeBack_writesRegister s rd v

theorem link_writes {target npc : Word} (hpc : target = npc) :
    WritesRegister s ((s.setReg rd s.nextPc).complete target) rd (BitVec.ofNat 32 (s.pc.toNat + 4)) npc := by
  rw [← hpc, ← nextPc_eq]; exact setReg_complete_writesRegister s rd s.nextPc target

theorem complete_moves {target npc : Word} (hpc : target = npc) : OnlyMovesPc s (s.complete target) npc :=
  hpc ▸ complete_onlyMovesPc s target

theorem unknownWord_diagnoses (w : Word) :
    OnlyDiagnoses s (s.unknownWord w) w (BitVec.ofNat 32 (s.pc.toNat + 4)) := by
  rw [← nextPc_eq]; exact unknownWord_onlyDiagnoses s w

/-- The next pc of a branch, as a number. -/
theorem branchPc_eq (c : Bool) (off : BitVec 13) :
    s.branchPc c off = if c then BitVec.ofInt 32 (s.pc.toNat + off.toInt) else BitVec.ofNat 32 (s.pc.toNat + 4) := by
  rw [← branchTarget_eq, ← nextPc_eq]; rfl

end

/-! ### The instructions -/

/-- Settles O11: the wrapped sum and difference, written back. -/
theorem addSubWrap : Obligations.AddSubWrap := fun s rd _ _ =>
  ⟨⟨_, rfl, writeBack_writes s rd (add_eq_ofNat ..)⟩, ⟨_, rfl, writeBack_writes s rd (sub_eq_ofInt ..)⟩⟩

/-- Settles O12: bit `k` of the result is the operation on bit `k` of the operands. -/
theorem bitwiseInstructionsActPerBit : Obligations.BitwiseInstructionsActPerBit := fun s rd _ _ =>
  ⟨⟨_, _, rfl, writeBack_writes s rd rfl, fun _ => BitVec.getLsbD_and⟩,
    ⟨_, _, rfl, writeBack_writes s rd rfl, fun _ => BitVec.getLsbD_or⟩,
    ⟨_, _, rfl, writeBack_writes s rd rfl, fun _ => BitVec.getLsbD_xor⟩⟩

/-- Settles O13: the comparison is a decision on the signed values, the amount is reduced modulo 32. -/
theorem sltAndSrlResults : Obligations.SltAndSrlResults := by
  intro s rd rs1 rs2
  refine ⟨⟨_, rfl, writeBack_writes s rd (boolWord_decide _)⟩, ⟨_, rfl, writeBack_writes s rd ?_⟩⟩
  rw [regShamt_eq, shiftRight_eq_ofNat]

/-- Settles O14: adding the sign-extended field adds its signed value modulo 2^32. -/
theorem addiAddsSignedImmediate : Obligations.AddiAddsSignedImmediate := fun s rd _ _ =>
  ⟨_, rfl, writeBack_writes s rd (add_signExtend ..)⟩

/-- Settles O15: a shift multiplies or divides by a power of two. -/
theorem shiftImmediateResults : Obligations.ShiftImmediateResults := fun s rd _ _ =>
  ⟨⟨_, rfl, writeBack_writes s rd (shiftLeft_eq_ofNat ..)⟩, ⟨_, rfl, writeBack_writes s rd (shiftRight_eq_ofNat ..)⟩⟩

/-- Settles O16: under this setting the field is sign-extended, and the comparison is a decision on the unsigned values. -/
theorem sltiuComparesUnsigned : Obligations.SltiuComparesUnsigned := fun s rd _ _ =>
  ⟨_, rfl, writeBack_writes s rd (boolWord_decide _)⟩

/-- Settles O17: the target is the sum with bit 0 cleared. -/
theorem jalrLinksAndJumps : Obligations.JalrLinksAndJumps := by
  intro s rd rs1 imm
  refine ⟨_, s.jalrTarget rs1 imm, rfl, link_writes s rd rfl, ?_⟩
  rw [State.jalrTarget, and_clear_bit0, BitVec.toNat_add, sext12]

/-- Settles O18: the effective address is the wrapped sum, aligned or not. -/
theorem lwLoadsExactCell : Obligations.LwLoadsExactCell := fun s rd rs1 imm =>
  ⟨_, rfl, writeBack_writes s rd (congrArg s.load (effAddr_eq s rs1 imm))⟩

/-- Settles O19: the cell of the effective address by the rules of a write, all else as completing a step keeps it. -/
theorem swStoresExactCell : Obligations.SwStoresExactCell := by
  intro s rs2 rs1 imm
  rw [← effAddr_eq]
  refine ⟨_, rfl, fun a ha => ?other, fun hmem => ?cell, fun _ => rfl, nextPc_eq s, rfl, ⟨rfl, rfl, rfl, rfl, rfl⟩,
    complete_oneSnapshot (s.store (s.effAddr rs1 imm) (s.reg rs2)) s.nextPc⟩
  case other => exact readCell_writeCell_other _ _ _ _ fun e => ha (BitVec.eq_of_toNat_eq e)
  case cell => exact (store_cellWritten s _ (s.reg rs2) hmem _).trans (if_pos rfl)

/-- Settles O20: the next pc of a branch is its target or the pc plus 4, as the condition says. -/
theorem branchesTakeTheirTarget : Obligations.BranchesTakeTheirTarget := fun s _ _ _ =>
  ⟨⟨_, rfl, complete_moves s (by simp [branchPc_eq, sameWord])⟩,
    ⟨_, rfl, complete_moves s (by simp [branchPc_eq, sameWord])⟩⟩

/-- Settles O21: the value itself, or the pc plus the value modulo 2^32. -/
theorem upperImmediateResults : Obligations.UpperImmediateResults := fun s rd _ =>
  ⟨⟨_, rfl, writeBack_writes s rd rfl⟩, ⟨_, rfl, writeBack_writes s rd (add_eq_ofNat ..)⟩⟩

/-- Settles O22: link and target are both of the old pc. -/
theorem jalLinksAndJumps : Obligations.JalLinksAndJumps := fun s rd off =>
  ⟨_, rfl, link_writes s rd (jalTarget_eq s off)⟩

/-- Settles O23: under this setting a halt is the end of the run and nothing before it. -/
theorem haltEndsTheRun : Obligations.HaltEndsTheRun := fun s => ⟨_, rfl, endRun_endsRun s .halt, rfl⟩

/-- Settles O24: its meaning is the unknown-word rule with the word 0. -/
theorem rstIsADiagnosedNoOp : Obligations.RstIsADiagnosedNoOp := fun s => ⟨_, rfl, unknownWord_diagnoses s Config.rstWord⟩

end Sys2Proof.Machine
end

section
/-!
PROOF. Frames (10_state.md R24, R34; 20_memory.md R50, R51; 41_executor_loop.md R166, R168): what no instruction
touches, from the ways one completes.
-/

namespace Sys2Proof.Machine

/-- Settles O32: by the register frame of `exec`. -/
theorem instructionsWriteOnlyRd : Obligations.InstructionsWriteOnlyRd := fun _ _ _ h _ => exec_reg_of_destOf_ne h

/-- An instruction that stores nothing keeps data memory. -/
theorem exec_mem_of_no_store {i : Instr} {s t : State} (h : exec i s = .next t) (hst : storeAddrOf i s = none) :
    t.mem = s.mem := by
  cases exec_completes h with
  | register rd v npc _ _ _ _ ht => simp [ht]
  | memory addr v _ haddr => simp [haddr] at hst
  | branch npc _ _ _ _ ht => simp [ht]
  | unknown _ ht => simp [ht, State.unknownWord]
  | halted _ ht => simp [ht]

/-- An instruction changes no cell but the one it stores to. -/
theorem exec_load_of_ne {i : Instr} {s t : State} (h : exec i s = .next t) {addr a : Word}
    (haddr : storeAddrOf i s = some addr) (ha : a ≠ addr) : t.load a = s.load a := by
  cases exec_completes h with
  | register rd v npc _ hst => simp [haddr] at hst
  | memory addr' v _ haddr' _ _ ht =>
    obtain rfl : addr = addr' := Option.some.inj (haddr.symm.trans haddr')
    rw [ht]
    exact readCell_writeCell_other _ _ _ _ fun e => ha (BitVec.eq_of_toNat_eq e)
  | branch npc _ hst => simp [haddr] at hst
  | unknown hi => simp [hi, storeAddrOf] at haddr
  | halted hi => simp [hi, storeAddrOf] at haddr

/-- Settles O33: by the memory frame of `exec`, cell by cell for `sw` and whole for the others. -/
theorem instructionsStoreOnlyAtTheirAddress : Obligations.InstructionsStoreOnlyAtTheirAddress := fun _ _ _ h =>
  ⟨fun _ haddr _ => exec_load_of_ne h haddr, fun hst => load_of_mem (exec_mem_of_no_store h hst)⟩

/-- What no instruction but `halt` changes, and the snapshot each appends. -/
theorem exec_surround_of_ne_halt {i : Instr} {s t : State} (h : exec i s = .next t) (hi : i ≠ .halt) :
    t.stop = s.stop ∧ t.dump = s.dump ∧ OneSnapshot s t := by
  cases exec_completes h with
  | register rd v npc _ _ _ _ ht => rw [ht]; exact ⟨rfl, rfl, complete_oneSnapshot (s.setReg rd v) npc⟩
  | memory addr v _ _ _ _ ht => rw [ht]; exact ⟨rfl, rfl, complete_oneSnapshot (s.store addr v) s.nextPc⟩
  | branch npc _ _ _ _ ht => rw [ht]; exact ⟨rfl, rfl, complete_oneSnapshot s npc⟩
  | unknown _ ht => rw [ht]; exact ⟨rfl, rfl, complete_oneSnapshot (s.report _) s.nextPc⟩
  | halted hhalt => exact absurd hhalt hi

theorem exec_diag_of_ne_rst {i : Instr} {s t : State} (h : exec i s = .next t) (hi : i ≠ .rst) : t.diag = s.diag := by
  cases exec_completes h with
  | register rd v npc _ _ _ _ ht => simp [ht]
  | memory addr v _ _ _ _ ht => simp [ht]
  | branch npc _ _ _ _ ht => simp [ht]
  | unknown hrst => exact absurd hrst hi
  | halted _ ht => simp [ht]

theorem exec_enc_launched {i : Instr} {s t : State} (h : exec i s = .next t) :
    t.enc = s.enc ∧ t.launched = s.launched := by
  cases exec_completes h with
  | register rd v npc _ _ _ _ ht => simp [ht]
  | memory addr v _ _ _ _ ht => simp [ht]
  | branch npc _ _ _ _ ht => simp [ht]
  | unknown _ ht => simp [ht, State.unknownWord]
  | halted _ ht => simp [ht]

/-- Settles O34: from the ways an instruction completes. -/
theorem instructionsKeepTheSurround : Obligations.InstructionsKeepTheSurround := by
  intro i s t h
  obtain ⟨henc, hlaunched⟩ := exec_enc_launched h
  exact ⟨exec_imem h, henc, hlaunched, exec_diag_of_ne_rst h, exec_surround_of_ne_halt h⟩

/-- A branch that leaves the sequence has its condition. -/
theorem branchPc_ne {s : State} {c : Bool} {off : BitVec 13} (h : s.branchPc c off ≠ BitVec.ofNat 32 (s.pc.toNat + 4)) :
    c = true := by
  by_contra hc
  exact h ((if_neg hc).trans (nextPc_eq s))

/-- Settles O35: every instruction without a target of its own completes with the pc plus 4. -/
theorem onlyJumpsLeaveTheSequence : Obligations.OnlyJumpsLeaveTheSequence := by
  intro i s t h hpc
  cases i with
  | beq rs1 rs2 off =>
    cases h
    exact .inl ⟨rs1, rs2, off, rfl, by simpa [sameWord] using branchPc_ne hpc⟩
  | bne rs1 rs2 off =>
    cases h
    exact .inr (.inl ⟨rs1, rs2, off, rfl, by simpa [sameWord] using branchPc_ne hpc⟩)
  | jal rd off => exact .inr (.inr (.inl ⟨rd, off, rfl⟩))
  | jalr rd rs1 imm => exact .inr (.inr (.inr (.inl ⟨rd, rs1, imm, rfl⟩)))
  | halt => exact .inr (.inr (.inr (.inr rfl)))
  | _ => cases h; exact absurd (nextPc_eq s) hpc

/-- No arm of `exec` reads the program. -/
theorem exec_withProgram {i : Instr} {s t : State} (h : exec i s = .next t) (prog : List Word) :
    exec i { s with imem := prog } = .next { t with imem := prog } := by
  cases i <;> cases h <;> rfl

/-- Settles O37: instructions by the frame of the program, fetches because they read the pc and the program only. -/
theorem addressSpacesAreDisjoint : Obligations.AddressSpacesAreDisjoint :=
  ⟨fun _ _ _ prog h => ⟨exec_imem h, exec_withProgram h prog⟩, fun _ _ => fetch_of_pc_imem rfl rfl,
    fun _ _ => fetch_of_pc_imem⟩

end Sys2Proof.Machine
end

section
/-!
PROOF. The turn of the loop (41_executor_loop.md R162 to R169): what `step` answers in each of its cases.
-/

namespace Sys2Proof.Machine

/-! ### The answer of `step` in each case -/

section
variable {s : State}

theorem step_of_encoder (h : s.enc.running = true) : step s = .next (encStep s) := if_pos h

theorem step_of_idle (henc : s.enc.running = false) : step s = exeStep s := by
  rw [step, henc]; rfl

theorem step_of_rest (henc : s.enc.running = false) (hexe : s.exeRunning = false) : step s = .next s := by
  rw [step_of_idle henc, exeStep, hexe]; rfl

theorem step_of_word {w : Word} (henc : s.enc.running = false) (hexe : s.exeRunning = true) (hf : s.fetch = .word w) :
    step s = runWord w s := by
  rw [step_of_idle henc, exeStep, if_pos hexe, hf]

theorem step_of_offEnd (henc : s.enc.running = false) (hexe : s.exeRunning = true) (hf : s.fetch = .offEnd) :
    step s = .next (s.endRun .offEnd) := by
  rw [step_of_idle henc, exeStep, if_pos hexe, hf]

theorem step_of_misaligned (henc : s.enc.running = false) (hexe : s.exeRunning = true) (hf : s.fetch = .misaligned) :
    step s = .fault (.misalignedPc (s.endRun .misalignedPc)) := by
  rw [step_of_idle henc, exeStep, if_pos hexe, hf]

theorem runWord_of_ok {w : Word} {i : Instr} (h : decode w = .ok i) : runWord w s = exec i s := by
  rw [runWord, h]

theorem runWord_of_error {w : Word} {e : DecodeReject} (h : decode w = .error e) :
    runWord w s = .next (s.unknownWord w) := by
  rw [runWord, h]; rfl

/-- Every instruction completes (60_exceptions.md R240). -/
theorem exec_next (i : Instr) (s : State) : ∃ t, exec i s = .next t := by
  cases i <;> exact ⟨_, rfl⟩

theorem runWord_next (w : Word) (s : State) : ∃ t, runWord w s = .next t := by
  cases h : decode w with
  | ok i => rw [runWord_of_ok h]; exact exec_next i s
  | error e => exact ⟨_, runWord_of_error h⟩

theorem exeRunning_of_stop {r : StopReason} (h : s.stop = some r) : s.exeRunning = false := by
  simp [State.exeRunning, h]

end

/-! ### The loop -/

/-- Settles O25: the fetch delivers the word, and its decoding is dispatched. -/
theorem stepRunsTheDecodedInstruction : Obligations.StepRunsTheDecodedInstruction := by
  intro s w i henc hexe hpc hw hd
  rw [step_of_word henc hexe (fetch_eq_word.mpr ⟨hpc, hw⟩), runWord_of_ok hd]

/-- Settles O26: the fetch delivers the word, and a rejected word runs as unknown. -/
theorem stepDiagnosesUnknownWord : Obligations.StepDiagnosesUnknownWord := by
  intro s w e henc hexe hpc hw hd
  rw [step_of_word henc hexe (fetch_eq_word.mpr ⟨hpc, hw⟩), runWord_of_error hd]
  exact ⟨_, rfl, unknownWord_diagnoses s w⟩

/-- Settles O27: the first test of the loop ends the run. -/
theorem pcBeyondProgramEndsTheRun : Obligations.PcBeyondProgramEndsTheRun := fun s henc hexe hpc =>
  ⟨_, step_of_offEnd henc hexe (if_pos hpc), endRun_endsRun s .offEnd, rfl⟩

/-- Settles O28: the second test of the loop stops with the state the run leaves. -/
theorem misalignedPcFaults : Obligations.MisalignedPcFaults := fun s henc hexe hin hmis =>
  ⟨_, step_of_misaligned henc hexe (fetch_eq_misaligned.mpr ⟨hin, hmis⟩), endRun_endsRun s .misalignedPc, rfl⟩

/-- Settles O29: in both cases no run is in progress, and such a machine answers the same state. -/
theorem endedRunTakesNoStep : Obligations.EndedRunTakesNoStep := by
  refine ⟨fun s r henc hstop => step_of_rest henc (exeRunning_of_stop hstop), fun s hrest => ?_⟩
  obtain ⟨henc, hexe⟩ := (atRest_iff s).mp hrest
  exact step_of_rest henc hexe

/-- Settles O31: case by case, the fetch from a misaligned pc is the one that answers no next state. -/
theorem stepNeverTrapsOrRefuses : Obligations.StepNeverTrapsOrRefuses := by
  intro s
  cases henc : s.enc.running with
  | true => exact .inl ⟨_, step_of_encoder henc⟩
  | false =>
  cases hexe : s.exeRunning with
  | false => exact .inl ⟨_, step_of_rest henc hexe⟩
  | true =>
  cases hf : s.fetch with
  | offEnd => exact .inl ⟨_, step_of_offEnd henc hexe hf⟩
  | word w => rw [step_of_word henc hexe hf]; exact .inl (runWord_next w s)
  | misaligned =>
    obtain ⟨hin, hmis⟩ := fetch_eq_misaligned.mp hf
    exact .inr ⟨rfl, rfl, hin, hmis, _, step_of_misaligned henc hexe hf⟩

/-- Settles O47: an even pc that is no multiple of 4 is 2 modulo 4, and the end of the run keeps it. -/
theorem misalignedPcIsTwoModFour : Obligations.MisalignedPcIsTwoModFour := by
  intro s t heven h
  obtain ⟨-, -, -, hmis, rfl⟩ := step_misaligned h
  have heven : s.pc.toNat % 2 = 0 := heven
  exact ⟨by rw [endRun_pc]; omega, rfl⟩

/-! ### The placed word -/

theorem tableWord_toNat (w : Word) : tableWord 32 w.toNat = w := by
  rw [tableWord, Nat.mod_eq_of_lt w.isLt, BitVec.ofNat_toNat, BitVec.setWidth_eq]

theorem placeWord_getElem? (imem : List Word) (k : Nat) (w : Word) : (placeWord imem k w)[k]? = some w := by
  have hk : k < (imem ++ List.replicate (k + 1 - imem.length) Config.rstWord).length := by
    rw [List.length_append, List.length_replicate]; omega
  rw [placeWord, List.getElem?_set_self hk]

theorem withFetchWord_fetch (s : State) (w : Word) : (s.withFetchWord 32 w.toNat).fetch = .word w := by
  have hpc : (s.withFetchWord 32 w.toNat).pc = alignPc s.pc := rfl
  refine fetch_eq_word.mpr ⟨by rw [hpc, alignPc_toNat]; omega, ?_⟩
  calc (s.withFetchWord 32 w.toNat).imem[(s.withFetchWord 32 w.toNat).pc.toNat / 4]?
      = some (tableWord 32 w.toNat) := placeWord_getElem? ..
    _ = some w := by rw [tableWord_toNat]

theorem withFetchWord_enc_running (s : State) (nbits w : Nat) : (s.withFetchWord nbits w).enc.running = false := by
  cases h : s.enc.phase <;> simp [State.withFetchWord, Encoder.running, h]

/-- Settles O30: the placed word is fetched, and a well-formed instruction is what its word decodes to. -/
theorem placedWordRunsNext : Obligations.PlacedWordRunsNext := by
  intro s i hwf
  refine ⟨?_, fun _ => rfl, fun _ => rfl⟩
  rw [step_of_word (withFetchWord_enc_running ..) rfl (withFetchWord_fetch s (encode i)),
    runWord_of_ok (decodeOfEncodeIsIdentity i hwf)]

/-! ### The two agents (00_scope.md R5) -/

theorem not_atRest {s : State} (h : s.enc.running = true ∨ s.launched = true ∧ s.stop = none) : ¬s.atRest = true := by
  intro hrest
  obtain ⟨henc, hexe⟩ := (atRest_iff s).mp hrest
  rcases h with h | h
  · simp [henc] at h
  · simp [(exeRunning_iff s).mpr h] at hexe

/-- A step of EXE keeps ENC. -/
theorem step_enc {s t : State} (henc : s.enc.running = false) (h : step s = .next t) : t.enc = s.enc := by
  cases step_next h with
  | encoder hr => simp [henc] at hr
  | rest _ _ ht => rw [ht]
  | offEnd _ _ ht => simp [ht]
  | instr w i _ _ _ _ he => exact (exec_enc_launched he).1
  | unknown w _ _ ht => simp [ht, State.unknownWord]

/-- No step takes the launch back. -/
theorem step_launched {s t : State} (h : step s = .next t) : t.launched = s.launched := by
  cases step_next h with
  | encoder _ ht => simp [ht]
  | rest _ _ ht => rw [ht]
  | offEnd _ _ ht => simp [ht]
  | instr w i _ _ _ _ he => exact (exec_enc_launched he).2
  | unknown w _ _ ht => simp [ht, State.unknownWord]

/-- What a step does to the stop reason and the dump: nothing, or it ends the run. -/
theorem step_stop {s t : State} (h : step s = .next t) :
    t.stop = s.stop ∧ t.dump = s.dump ∨ ∃ r, t = s.endRun r := by
  cases step_next h with
  | encoder _ ht => exact .inl (by simp [ht])
  | rest _ _ ht => exact .inl (by simp [ht])
  | offEnd _ _ ht => exact .inr ⟨_, ht⟩
  | unknown w _ _ ht => exact .inl (by simp [ht, State.unknownWord])
  | instr w i _ _ _ _ he =>
    by_cases hi : i = .halt
    · subst hi; cases he; exact .inr ⟨.halt, rfl⟩
    · obtain ⟨hstop, hdump, -⟩ := exec_surround_of_ne_halt he hi
      exact .inl ⟨hstop, hdump⟩

/-- Settles O39: ENC keeps EXE by the record update of its move, EXE keeps ENC by the frames, the host by its test, the
end of a run by what a step does to the stop reason. -/
theorem agentsDoNotTouchEachOther : Obligations.AgentsDoNotTouchEachOther := by
  refine ⟨fun s t h => ⟨fun henc => ?encoder, fun henc => step_enc henc h⟩, fun s h => ?host, fun s init words h => ?launch,
    fun s t hl hs h => ⟨(step_launched h).trans hl, ?lasts⟩⟩
  case encoder =>
    obtain rfl : encStep s = t := by simpa [step_of_encoder henc] using h
    exact ⟨⟨rfl, rfl, rfl, rfl, rfl, rfl, rfl, rfl, rfl⟩, rfl⟩
  case host =>
    have hlaunch : ∀ init words, s.launch init words = s := fun _ _ => if_neg (not_atRest h)
    refine ⟨fun src => if_neg (not_atRest h), hlaunch, ?_⟩
    rw [State.carryWords, State.launchReset, hlaunch, ite_self]
  case launch => rw [launch_of_atRest init words h]; exact ⟨rfl, rfl⟩
  case lasts =>
    rcases step_stop h with ⟨hstop, -⟩ | ⟨r, rfl⟩
    · exact .inl (hstop.trans hs)
    · exact .inr ⟨r, rfl, congrArg some (dumpEntries_of_mem rfl).symm⟩

end Sys2Proof.Machine
end

section
/-!
PROOF. The outputs never feed back (10_state.md R34): every operation reads the same from a state whose outputs are replaced.
-/

namespace Sys2Proof.Machine

/-- A state with its outputs replaced. -/
def State.withOutputs (s : State) (trace : List Snapshot) (diag : List DiagRecord) (dump : Option (List DumpEntry)) : State :=
  { s with trace := trace, diag := diag, dump := dump }

theorem exists_withOutputs {s s' : State} (h : SameButOutputs s s') :
    ∃ trace diag dump, s' = s.withOutputs trace diag dump := by
  refine ⟨s'.trace, s'.diag, s'.dump, ?_⟩
  obtain ⟨hregs, hpc, hmem, himem, hstop, hlaunched, henc⟩ := h
  cases s; cases s'; simp_all [State.withOutputs]

/-- Two outcomes that differ in the outputs of their states only. -/
inductive SameOutcome : StepOutcome → StepOutcome → Prop where
  | next {t t' : State} : SameButOutputs t t' → SameOutcome (.next t) (.next t')
  | misaligned {t t' : State} : SameButOutputs t t' → SameOutcome (.fault (.misalignedPc t)) (.fault (.misalignedPc t'))

theorem SameOutcome.of_next {t : State} {out : StepOutcome} (h : SameOutcome (.next t) out) :
    ∃ t', out = .next t' ∧ SameButOutputs t t' := by
  cases h with
  | next hsame => exact ⟨_, rfl, hsame⟩

theorem SameOutcome.of_misaligned {t : State} {out : StepOutcome} (h : SameOutcome (.fault (.misalignedPc t)) out) :
    ∃ t', out = .fault (.misalignedPc t') ∧ SameButOutputs t t' := by
  cases h with
  | misaligned hsame => exact ⟨_, rfl, hsame⟩

section
variable (s : State) (trace : List Snapshot) (diag : List DiagRecord) (dump : Option (List DumpEntry))

/-- No arm of `exec` reads an output but to append to it. -/
theorem exec_sameOutcome (i : Instr) : SameOutcome (exec i s) (exec i (s.withOutputs trace diag dump)) := by
  cases i <;> exact .next ⟨rfl, rfl, rfl, rfl, rfl, rfl, rfl⟩

theorem runWord_sameOutcome (w : Word) : SameOutcome (runWord w s) (runWord w (s.withOutputs trace diag dump)) := by
  cases h : decode w with
  | ok i => rw [runWord_of_ok h, runWord_of_ok h]; exact exec_sameOutcome s trace diag dump i
  | error e => rw [runWord_of_error h, runWord_of_error h]; exact .next ⟨rfl, rfl, rfl, rfl, rfl, rfl, rfl⟩

theorem step_sameOutcome : SameOutcome (step s) (step (s.withOutputs trace diag dump)) := by
  have henc' : (s.withOutputs trace diag dump).enc.running = s.enc.running := rfl
  have hexe' : (s.withOutputs trace diag dump).exeRunning = s.exeRunning := rfl
  have hf' : (s.withOutputs trace diag dump).fetch = s.fetch := rfl
  cases henc : s.enc.running with
  | true =>
    rw [step_of_encoder henc, step_of_encoder (henc'.trans henc)]
    exact .next ⟨rfl, rfl, rfl, rfl, rfl, rfl, rfl⟩
  | false =>
  rw [step_of_idle henc, step_of_idle (henc'.trans henc), exeStep, exeStep, hexe', hf']
  cases s.exeRunning with
  | false => exact .next ⟨rfl, rfl, rfl, rfl, rfl, rfl, rfl⟩
  | true =>
  cases s.fetch with
  | offEnd => exact .next ⟨rfl, rfl, rfl, rfl, rfl, rfl, rfl⟩
  | misaligned => exact .misaligned ⟨rfl, rfl, rfl, rfl, rfl, rfl, rfl⟩
  | word w => exact runWord_sameOutcome s trace diag dump w

end

/-- Settles O38: the step from the state with other outputs has the same outcome but for the outputs. -/
theorem outputsDoNotFeedBack : Obligations.OutputsDoNotFeedBack := by
  intro s s' h
  obtain ⟨trace, diag, dump, rfl⟩ := exists_withOutputs h
  have hout := step_sameOutcome s trace diag dump
  exact ⟨fun t ht => SameOutcome.of_next (ht ▸ hout), fun t ht => SameOutcome.of_misaligned (ht ▸ hout)⟩

end Sys2Proof.Machine
end

section
/-!
PROOF. Data memory (20_memory.md R51, R54, R59): reads after writes, the one instruction that writes, and that a
canonical memory is determined by what it reads.
-/

namespace Sys2Proof.Machine

theorem eq_sw_of_storeAddrOf {i : Instr} {s : State} {addr : Word} (h : storeAddrOf i s = some addr) :
    ∃ rs2 rs1 imm, i = .sw rs2 rs1 imm := by
  cases i with
  | sw rs2 rs1 imm => exact ⟨rs2, rs1, imm, rfl⟩
  | _ => cases h

/-- A step that changes data memory runs a `sw`. -/
theorem step_mem {s t : State} (h : step s = .next t) (hne : t.mem ≠ s.mem) :
    ∃ w rs2 rs1 imm, s.imem[s.pc.toNat / 4]? = some w ∧ decode w = .ok (.sw rs2 rs1 imm) ∧
      t.mem = (s.store (s.effAddr rs1 imm) (s.reg rs2)).mem := by
  cases step_next h with
  | encoder _ ht => simp [ht] at hne
  | rest _ _ ht => simp [ht] at hne
  | offEnd _ _ ht => simp [ht] at hne
  | unknown w _ _ ht => simp [ht, State.unknownWord] at hne
  | instr w i _ _ hw hd he =>
    cases haddr : storeAddrOf i s with
    | none => exact absurd (exec_mem_of_no_store he haddr) hne
    | some addr =>
      obtain ⟨rs2, rs1, imm, rfl⟩ := eq_sw_of_storeAddrOf haddr
      cases he
      exact ⟨w, rs2, rs1, imm, hw, hd, rfl⟩

/-- Settles O48: reads by the rules of a write, writers because only `sw` has a store address. -/
theorem memoryPrimitives : Obligations.MemoryPrimitives :=
  ⟨store_cellWritten, fun s a hmem => by simp [State.load, hmem, readCell], fun _ _ => step_mem⟩

/-- Settles O49: the load reads the stored memory at an address the store did not change. -/
theorem loadAfterStore : Obligations.LoadAfterStore := by
  intro s t u rs2 rs1 rd rb imm imm' hmem hrd hsw hlw
  cases hsw
  cases hlw
  have hcell := store_cellWritten s (s.effAddr rs1 imm) (s.reg rs2) hmem (s.effAddr rb imm')
  rw [← hcell, State.writeBack, reg_complete, reg_setReg, if_neg hrd, if_pos rfl]
  rfl

/-! ### A memory in order of its addresses, cell by cell -/

section
variable {k a : Nat} {v : Word} {rest : Memory}

theorem readCell_below_head (h : ((k, v) :: rest : Memory).Pairwise fun c d => c.1 < d.1) (ha : a < k) :
    readCell ((k, v) :: rest) a = 0#32 := by
  refine readCell_eq_zero _ _ fun c hc => ?_
  rcases List.mem_cons.mp hc with rfl | hc
  · exact Nat.ne_of_gt ha
  · exact Nat.ne_of_gt (ha.trans (List.rel_of_pairwise_cons h hc))

theorem readCell_tail (h : ((k, v) :: rest : Memory).Pairwise fun c d => c.1 < d.1) :
    readCell rest a = if k = a then 0#32 else readCell ((k, v) :: rest) a := by
  split
  · next hk =>
    subst hk
    exact readCell_eq_zero _ _ fun c hc => Nat.ne_of_gt (List.rel_of_pairwise_cons h hc)
  · next hk => rw [readCell, if_neg hk]

theorem readCell_head_ne_zero (h : Memory.wf ((k, v) :: rest) = true) : readCell ((k, v) :: rest) k ≠ 0#32 := by
  obtain ⟨-, hcells⟩ := (Memory.wf_iff _).mp h
  rw [readCell, if_pos rfl]
  exact (hcells (k, v) (List.mem_cons_self ..)).2

theorem Memory.wf_pairwise {m : Memory} (h : m.wf = true) : m.Pairwise fun c d => c.1 < d.1 :=
  ((Memory.wf_iff m).mp h).1

theorem Memory.wf_tail {c : Nat × Word} (h : Memory.wf (c :: rest) = true) : Memory.wf rest = true := by
  obtain ⟨hp, hcells⟩ := (Memory.wf_iff _).mp h
  exact (Memory.wf_iff _).mpr ⟨hp.of_cons, fun d hd => hcells d (List.mem_cons_of_mem _ hd)⟩

/-- The first listed address of a canonical memory is not below that of one that reads alike. -/
theorem head_le {k' : Nat} {v' : Word} {rest' : Memory} (hm : Memory.wf ((k, v) :: rest) = true)
    (hm' : Memory.wf ((k', v') :: rest') = true)
    (h : ∀ a, readCell ((k, v) :: rest) a = readCell ((k', v') :: rest') a) : k' ≤ k := by
  by_contra hlt
  exact readCell_head_ne_zero hm ((h k).trans (readCell_below_head (Memory.wf_pairwise hm') (by omega)))

end

/-- Settles O50: cell by cell from the lowest address, which both memories list with its value. -/
theorem canonicalMemoryIsExtensional : Obligations.CanonicalMemoryIsExtensional := by
  intro m m' hm hm' h
  induction m generalizing m' with
  | nil =>
    cases m' with
    | nil => rfl
    | cons c' rest' => exact absurd (h c'.1).symm (readCell_head_ne_zero hm')
  | cons c rest ih =>
    cases m' with
    | nil => exact absurd (h c.1) (readCell_head_ne_zero hm)
    | cons c' rest' =>
      obtain ⟨k, v⟩ := c
      obtain ⟨k', v'⟩ := c'
      obtain rfl : k = k' := Nat.le_antisymm (head_le hm' hm fun a => (h a).symm) (head_le hm hm' h)
      obtain rfl : v = v' := by simpa [readCell] using h k
      have htail : rest = rest' := ih _ (Memory.wf_tail hm) (Memory.wf_tail hm') fun a => by
        rw [readCell_tail (Memory.wf_pairwise hm), readCell_tail (Memory.wf_pairwise hm'), h a]
      rw [htail]

end Sys2Proof.Machine
end

section
/-!
PROOF. ENC's bookkeeping (10_state.md R32; 40_encoder.md R113 to R115): every move keeps the symbol table a partial map to addresses
of instruction lines, and the recorded lines at the addresses their words will have.
-/

namespace Sys2Proof.Machine

/-! ### The symbol table -/

theorem symtabOk_reset : SymtabOk EncBook.reset := ⟨List.nodup_nil, nofun⟩

/-- Recording a line keeps the table and does not lower the address counter. -/
theorem recordLine_symtabOk {b : EncBook} (hb : SymtabOk b) (t : Text) : SymtabOk (recordLine b t) := by
  by_cases ht : t = []
  · rwa [ht, recordLine_blank]
  · rw [recordLine_text b t ht]
    obtain ⟨hnodup, hentries⟩ := hb
    refine ⟨hnodup, fun e he => ?_⟩
    obtain ⟨hname, hmul, hle⟩ := hentries e he
    exact ⟨hname, hmul, Nat.le_add_right_of_le hle⟩

/-- A new name enters the table at the address counter. -/
theorem define_symtabOk {b : EncBook} (hb : SymtabOk b) (haddr : b.addr % 4 = 0) {name : Text} (hn : isLabelName name = true)
    (hnew : name ∉ b.symtab.map Prod.fst) (lineNo : Nat) :
    SymtabOk { b with lineNo := lineNo, symtab := b.symtab ++ [(name, b.addr)] } := by
  obtain ⟨hnodup, hentries⟩ := hb
  refine ⟨?_, fun e he => ?_⟩
  · rw [List.map_append, List.map_singleton, List.nodup_append_comm, List.singleton_append]
    exact List.nodup_cons.mpr ⟨hnew, hnodup⟩
  · rcases List.mem_append.mp he with he | he
    · exact hentries e he
    · rw [List.mem_singleton.mp he]; exact ⟨hn, haddr, Nat.le_refl _⟩

theorem scanLine_symtabOk {b c : EncBook} {line : Text} (hb : SymtabOk b) (haddr : b.addr % 4 = 0)
    (h : scanLine b line = .ok c) : SymtabOk c := by
  cases scanLine_ok h with
  | plain _ hc => rw [hc]; exact recordLine_symtabOk (b := { b with lineNo := b.lineNo + 1 }) hb _
  | labelled name rest _ hn hnew hc => rw [hc]; exact recordLine_symtabOk (define_symtabOk hb haddr hn hnew _) _

theorem RecordedOk.addr_mod {b : EncBook} {n : Nat} (h : RecordedOk b n) : b.addr % 4 = 0 := by
  obtain ⟨haddr, -⟩ := h; omega

/-- Settles O53: the table's invariant holds from reset to the end of pass 1, where the counter stands past the last line. -/
theorem symbolTableIsAPartialMap : Obligations.SymbolTableIsAPartialMap := by
  intro src b h
  obtain ⟨⟨hnodup, hentries⟩, haddr, -⟩ : SymtabOk b ∧ RecordedOk b 0 :=
    scanAll_invariant (P := fun _ b => SymtabOk b ∧ RecordedOk b 0) (seen := [])
      (fun ⟨hs, hr⟩ hline => ⟨scanLine_symtabOk hs hr.addr_mod hline, scanLine_recordedOk hr hline⟩)
      ⟨symtabOk_reset, recordedOk_reset⟩ h
  refine ⟨hnodup, fun e he => ?_⟩
  obtain ⟨-, hmul, hle⟩ := hentries e he
  exact ⟨hmul, by omega⟩

/-! ### ENC's moves -/

/-- With one recorded line encoded, the next is the line of the next word. -/
theorem encoded_recordedOk {b : EncBook} {r : InstrLine} {rest : List InstrLine} {n : Nat} (hb : RecordedOk b n)
    (hr : b.recorded = r :: rest) (lineNo : Nat) : RecordedOk { b with lineNo := lineNo, recorded := rest } (n + 1) := by
  obtain ⟨haddr, hlines⟩ := hb
  simp only [hr, List.length_cons] at haddr hlines
  refine ⟨by simp only [haddr]; omega, fun k hk => ?_⟩
  have hnext := hlines (k + 1) (Nat.succ_lt_succ hk)
  rwa [List.getElem_cons_succ, show n + (k + 1) = n + 1 + k by omega] at hnext

theorem encoderOk_start (src : List Text) : EncoderOk (Encoder.start src) :=
  ⟨symtabOk_reset, recordedOk_reset, fun _ => rfl, fun h => absurd rfl h, nofun, nofun⟩

theorem encoderOk_reset : EncoderOk Encoder.reset :=
  ⟨symtabOk_reset, recordedOk_reset, fun _ => rfl, fun h => absurd rfl h, nofun, nofun⟩

theorem encoderOk_failed (err : EncError) : EncoderOk (Encoder.failed err) :=
  ⟨symtabOk_reset, recordedOk_reset, fun _ => rfl, fun h => absurd rfl h, ⟨fun _ => rfl, fun _ => rfl⟩⟩

theorem encoderOk_finished (ws : List Word) : EncoderOk (Encoder.finished ws) :=
  ⟨symtabOk_reset, recordedOk_reset, fun _ => rfl, fun _ => rfl, nofun, nofun⟩

theorem move_encoderOk {e : Encoder} (he : EncoderOk e) : EncoderOk e.move := by
  obtain ⟨hsym, hrec, hacc, hwords, herr⟩ := id he
  cases move_cases e with
  | scanned line rest b _ _ hline hmove =>
    rw [hmove]
    exact ⟨scanLine_symtabOk hsym hrec.addr_mod hline, scanLine_recordedOk hrec hline, hacc, hwords, herr⟩
  | turned hp _ hmove =>
    rw [hmove]
    rw [hp] at hwords herr
    exact ⟨hsym, hrec, nofun, fun h => (nomatch hwords h), fun h => (nomatch herr.mp h), nofun⟩
  | encoded r rest w hp hr _ hmove =>
    rw [hmove]
    refine ⟨hsym, ?_, fun h => by simp [hp] at h, hwords, herr⟩
    rw [List.length_append]
    exact encoded_recordedOk hrec hr r.lineNo
  | finished _ _ hmove => rw [hmove]; exact encoderOk_finished e.acc
  | failed err _ hmove => rw [hmove]; exact encoderOk_failed err
  | still _ hmove => rw [hmove]; exact he

end Sys2Proof.Machine
end

section
/-!
PROOF. The invariant of the whole machine (10_state.md section 4): each part is kept by every step, so every reachable state is
sound.
-/

namespace Sys2Proof.Machine

section
variable {s t : State}

/-! ### Data memory -/

theorem exec_memCanonical {i : Instr} (hs : MemCanonical s) (h : exec i s = .next t) : MemCanonical t := by
  cases exec_completes h with
  | register rd v npc _ _ _ _ ht => rw [ht]; exact hs
  | memory addr v _ _ _ _ ht => rw [ht]; exact store_memCanonical s addr v hs
  | branch npc _ _ _ _ ht => rw [ht]; exact hs
  | unknown _ ht => rw [ht]; exact hs
  | halted _ ht => rw [ht]; exact hs

theorem step_memCanonical (hs : MemCanonical s) (h : step s = .next t) : MemCanonical t := by
  cases step_next h with
  | encoder _ ht => rw [ht]; exact hs
  | rest _ _ ht => rw [ht]; exact hs
  | offEnd _ _ ht => rw [ht]; exact hs
  | instr w i _ _ _ _ he => exact exec_memCanonical hs he
  | unknown w _ _ ht => rw [ht]; exact hs

/-! ### The pc -/

theorem branchPc_even (hs : PcEven s) {off : BitVec 13} (hoff : (!off.getLsbD 0) = true) (c : Bool) :
    (s.branchPc c off).toNat % 2 = 0 := by
  cases c with
  | true => exact add_signExtend_even s.pc off (by decide) hs (by simpa using hoff)
  | false => exact nextPc_even s hs

/-- A well-formed instruction, as every decoded one is, keeps the pc even: its offset is even, and a `jalr` clears bit 0. -/
theorem exec_pcEven {i : Instr} (hs : PcEven s) (hwf : i.wellFormed = true) (h : exec i s = .next t) : PcEven t := by
  cases i with
  | beq rs1 rs2 off => cases h; exact branchPc_even hs hwf _
  | bne rs1 rs2 off => cases h; exact branchPc_even hs hwf _
  | jal rd off => cases h; exact add_signExtend_even s.pc off (by decide) hs (by simpa [Instr.wellFormed] using hwf)
  | jalr rd rs1 imm => cases h; exact jalrTarget_even s rs1 imm
  | halt => cases h; exact hs
  | _ => cases h; exact nextPc_even s hs

theorem step_pcEven (hs : PcEven s) (h : step s = .next t) : PcEven t := by
  cases step_next h with
  | encoder _ ht => rw [ht]; exact hs
  | rest _ _ ht => rw [ht]; exact hs
  | offEnd _ _ ht => rw [ht]; exact hs
  | instr w i _ _ _ hd he => exact exec_pcEven hs (isWordOf_of_decode hd).2 he
  | unknown w _ _ ht => rw [ht]; exact nextPc_even s hs

/-! ### The outputs -/

theorem dumpIffEnded_endRun (s : State) (reason : StopReason) : DumpIffEnded (s.endRun reason) := rfl

theorem step_dumpIffEnded (hs : DumpIffEnded s) (h : step s = .next t) : DumpIffEnded t := by
  rcases step_stop h with ⟨hstop, hdump⟩ | ⟨r, rfl⟩
  · unfold DumpIffEnded; rw [hstop, hdump]; exact hs
  · exact dumpIffEnded_endRun s r

/-- An appended snapshot shows `x[0]` as it reads. -/
theorem OneSnapshot.traceZero (hs : TraceZero s) (h : OneSnapshot s t) : TraceZero t := by
  obtain ⟨n, htrace, -, hregs⟩ := h
  intro m hm
  rw [htrace] at hm
  rcases List.mem_append.mp hm with hm | hm
  · exact hs m hm
  · rw [List.mem_singleton.mp hm]; exact (hregs 0).trans (reg_zero t)

theorem exec_traceZero {i : Instr} (hs : TraceZero s) (h : exec i s = .next t) : TraceZero t := by
  by_cases hi : i = .halt
  · subst hi; cases h; exact hs
  · obtain ⟨-, -, hsnap⟩ := exec_surround_of_ne_halt h hi
    exact hsnap.traceZero hs

theorem step_traceZero (hs : TraceZero s) (h : step s = .next t) : TraceZero t := by
  cases step_next h with
  | encoder _ ht => rw [ht]; exact hs
  | rest _ _ ht => rw [ht]; exact hs
  | offEnd _ _ ht => rw [ht]; exact hs
  | instr w i _ _ _ _ he => exact exec_traceZero hs he
  | unknown w _ _ ht => rw [ht]; exact (unknownWord_onlyDiagnoses s w).snapshot.traceZero hs

/-! ### The agents -/

/-- A step is ENC's or keeps ENC. -/
theorem step_enc_cases (h : step s = .next t) :
    s.enc.running = true ∧ t = encStep s ∨ s.enc.running = false ∧ t.enc = s.enc := by
  cases henc : s.enc.running with
  | true =>
    rw [step_of_encoder henc] at h
    cases h; exact .inl ⟨rfl, rfl⟩
  | false => exact .inr ⟨rfl, step_enc henc h⟩

theorem step_encoderOk (hs : EncoderOk s.enc) (h : step s = .next t) : EncoderOk t.enc := by
  rcases step_enc_cases h with ⟨-, rfl⟩ | ⟨-, henc⟩
  · exact move_encoderOk hs
  · rw [henc]; exact hs

theorem step_oneAgent (hs : OneAgent s) (h : step s = .next t) : OneAgent t := by
  rcases step_enc_cases h with ⟨hrun, rfl⟩ | ⟨hrun, henc⟩
  · exact fun _ => hs hrun
  · intro hrun'; simp [henc, hrun] at hrun'

/-! ### The host's moves and the end of a run -/

/-- The host starts ENC only at rest. -/
theorem startEncoder_sound (hs : Sound s) (src : List Text) : Sound (s.startEncoder src) := by
  rcases startEncoder_cases s src with hrest | hsame
  · obtain ⟨-, hexe⟩ := (atRest_iff s).mp hrest
    rw [startEncoder_of_atRest src hrest]
    exact { hs with encoderOk := encoderOk_start src, oneAgent := fun _ => hexe }
  · rwa [hsame]

/-- The host launches EXE only at rest, from an initial state it may give. -/
theorem launch_sound (hs : Sound s) {init : InitState} {words : List Word} (hinit : init.ok = true)
    (hpc : init.pc.toNat % 2 = 0) (hwords : words.length ≤ maxWords) : Sound (s.launch init words) := by
  rcases launch_cases s init words with hrest | hsame
  · obtain ⟨henc, -⟩ := (atRest_iff s).mp hrest
    obtain ⟨hzero, hmem⟩ : init.regs[0] = 0#32 ∧ init.mem.wf = true := by simpa [InitState.ok] using hinit
    rw [launch_of_atRest init words hrest]
    exact { regZero := hzero, memCanonical := hmem, pcEven := hpc, programFits := hwords, dumpIffEnded := rfl
            traceZero := nofun, encoderOk := hs.encoderOk, oneAgent := fun hrun => by simp [henc] at hrun }
  · rwa [hsame]

/-- The end of a run keeps all that is not the stop reason or the dump. -/
theorem endRun_sound (hs : Sound s) (reason : StopReason) : Sound (s.endRun reason) :=
  { hs with dumpIffEnded := dumpIffEnded_endRun s reason, oneAgent := fun _ => endRun_exeRunning s reason }

end

/-! ### The steps, the reset state and the reachable states -/

/-- Settles O41: only a store changes data memory, and it keeps the form. -/
theorem stepKeepsMemoryCanonical : Obligations.StepKeepsMemoryCanonical := fun _ _ => step_memCanonical

/-- Settles O42: the offset of a decoded instruction is even. -/
theorem stepKeepsPcEven : Obligations.StepKeepsPcEven := fun _ _ => step_pcEven

/-- Settles O43, part by part. -/
theorem stepKeepsSound : Obligations.StepKeepsSound := fun _ _ hs h =>
  { regZero := step_regZero hs.regZero h
    memCanonical := step_memCanonical hs.memCanonical h
    pcEven := step_pcEven hs.pcEven h
    programFits := (congrArg List.length (step_imem h)).trans_le hs.programFits
    dumpIffEnded := step_dumpIffEnded hs.dumpIffEnded h
    traceZero := step_traceZero hs.traceZero h
    encoderOk := step_encoderOk hs.encoderOk h
    oneAgent := step_oneAgent hs.oneAgent h }

theorem resetWith_sound (seed : Word) : Sound (State.resetWith seed) where
  regZero := by simp [RegZero, State.resetWith, resetRegs]
  memCanonical := Memory.wf_nil
  pcEven := rfl
  programFits := Nat.zero_le _
  dumpIffEnded := rfl
  traceZero := nofun
  encoderOk := encoderOk_reset
  oneAgent := nofun

/-- Settles O45: by the soundness of reset for every seed. -/
theorem resetIsSound : Obligations.ResetIsSound := ⟨resetWith_sound, resetWith_sound Config.spSeed⟩

/-- Settles O44, along the way the state is reached. -/
theorem reachableStatesAreSound : Obligations.ReachableStatesAreSound := by
  intro s hs
  induction hs with
  | reset seed => exact resetWith_sound seed
  | source src _ ih => exact startEncoder_sound ih src
  | launch init words _ hinit hpc hwords ih => exact launch_sound ih hinit hpc hwords
  | step _ h ih => exact stepKeepsSound _ _ ih h
  | misaligned _ h ih =>
    obtain ⟨-, -, -, -, rfl⟩ := step_misaligned h
    exact endRun_sound ih .misalignedPc

theorem resetWith_reg (seed : Word) (r : RegIdx) : (State.resetWith seed).reg r = if r = 2 then seed else 0#32 := by
  by_cases h0 : r = 0
  · subst h0; simp
  · have hslot : 2 = r.val ↔ r = 2 := ⟨fun h => Fin.ext h.symm, fun h => h ▸ rfl⟩
    simp [State.reg, readRegs, h0, State.resetWith, resetRegs, Vector.getElem_set, hslot]

/-- Settles O46: register by register, the other fields by definition. -/
theorem resetValues : Obligations.ResetValues := fun seed =>
  ⟨resetWith_reg seed, rfl, fun _ => rfl, rfl, rfl, rfl, rfl, rfl, rfl, rfl, rfl, rfl, rfl⟩

end Sys2Proof.Machine
end

section
/-!
PROOF. The names and literals of a line (40_encoder.md R120, R121): a numeral has the value of its digits, read one by one.
-/

namespace Sys2Proof.Machine

/-- Settles O58: each name by the lookup in the table. -/
theorem registerNamesResolve : Obligations.RegisterNamesResolve := by
  refine ⟨by decide, ?_⟩
  and_intros <;> rfl

/-! ### The value of digits -/

/-- A digit at the end multiplies the number before it by the base. -/
theorem digitsValue_concat (base : Nat) (digit : Char → Option Nat) {t : Text} {c : Char} {acc n d : Nat}
    (ht : digitsValue base digit t acc = some n) (hc : digit c = some d) :
    digitsValue base digit (t ++ [c]) acc = some (base * n + d) := by
  induction t generalizing acc with
  | nil =>
    obtain rfl : acc = n := Option.some.inj ht
    simp [digitsValue, hc]
  | cons c' t ih =>
    simp only [List.cons_append, digitsValue] at ht ⊢
    split at ht
    · exact ih ht
    · cases ht

/-- The digits of a number in a base have its value, where each digit of the base has its. -/
theorem digitsValue_toDigits {base : Nat} {digit : Char → Option Nat} (hb : 1 < base)
    (hdigit : ∀ d < base, digit (Nat.digitChar d) = some d) (n : Nat) :
    digitsValue base digit (Nat.toDigits base n) 0 = some n := by
  induction n using Nat.base_induction base hb with
  | single m hm => simp [Nat.toDigits_of_lt_base hm, digitsValue, hdigit m hm]
  | digit m k hk hm ih =>
    rw [← Nat.toDigits_append_toDigits hb hm hk, Nat.toDigits_of_lt_base hk]
    exact digitsValue_concat base digit ih (hdigit k hk)

/-- Leading zeros change nothing. -/
theorem digitsValue_zeros {base : Nat} {digit : Char → Option Nat} (h0 : digit '0' = some 0) (k : Nat) (t : Text) :
    digitsValue base digit (List.replicate k '0' ++ t) 0 = digitsValue base digit t 0 := by
  induction k with
  | zero => rfl
  | succ k ih => simp [List.replicate_succ, digitsValue, h0, ih]

theorem numeral_zeros_append {base n : Nat} {digit : Char → Option Nat} {t : Text} (h0 : digit '0' = some 0) (k : Nat)
    (hne : t ≠ []) (ht : digitsValue base digit t 0 = some n) :
    numeral base digit (List.replicate k '0' ++ t) = some n := by
  rw [numeral, if_neg (by simp [hne]), digitsValue_zeros h0, ht]

theorem decDigit_digitChar : ∀ d < 10, decDigit (Nat.digitChar d) = some d := by decide

theorem hexDigit_digitChar : ∀ d < 16, hexDigit (Nat.digitChar d) = some d := by decide

theorem hexDigit_toLower_upper : ∀ n < 91, 65 ≤ n → hexDigit (Char.ofNat n).toLower = hexDigit (Char.ofNat n) := by
  decide

/-- A hexadecimal digit has the same value in either case. -/
theorem hexDigit_toLower (c : Char) : hexDigit c.toLower = hexDigit c := by
  by_cases h : c.val ≥ 'A'.val ∧ c.val ≤ 'Z'.val
  · have hlo : 65 ≤ c.toNat := h.1
    have hhi : c.toNat ≤ 90 := h.2
    rw [← Char.ofNat_toNat c]
    exact hexDigit_toLower_upper c.toNat (by omega) hlo
  · rw [Char.toLower, dif_neg h]

theorem digitsValue_map_toLower (base : Nat) (ds : Text) (acc : Nat) :
    digitsValue base hexDigit (ds.map Char.toLower) acc = digitsValue base hexDigit ds acc := by
  induction ds generalizing acc with
  | nil => rfl
  | cons c cs ih => simp only [List.map_cons, digitsValue, hexDigit_toLower, ih]

/-! ### Numerals -/

theorem numeral_decimal (n k : Nat) : numeral 10 decDigit (List.replicate k '0' ++ Nat.toDigits 10 n) = some n :=
  numeral_zeros_append rfl k Nat.toDigits_ne_nil (digitsValue_toDigits (by decide) decDigit_digitChar n)

theorem numeral_hexadecimal {n : Nat} (k : Nat) {ds : Text} (h : ds.map Char.toLower = Nat.toDigits 16 n) :
    numeral 16 hexDigit (List.replicate k '0' ++ ds) = some n := by
  refine numeral_zeros_append rfl k ?_ ?_
  · rintro rfl; exact Nat.toDigits_ne_nil h.symm
  · rw [← digitsValue_map_toLower, h]
    exact digitsValue_toDigits (by decide) hexDigit_digitChar n

/-! ### A text of decimal digits has neither a sign nor the hexadecimal mark -/

theorem magnitude_of_digits {t : Text} (h : ∀ c ∈ t, c.isDigit = true) : magnitude t = numeral 10 decDigit t := by
  unfold magnitude
  split
  · exact absurd (h 'x' (by simp)) (by decide)
  · exact absurd (h 'X' (by simp)) (by decide)
  · rfl

/-! ### The sign -/

section
variable {t : Text} {n : Nat}

theorem literal_of_digits (ht : ∀ c ∈ t, c.isDigit = true) (h : magnitude t = some n) : literal t = some (n : Int) := by
  unfold literal
  split
  · exact absurd (ht '-' (by simp)) (by decide)
  · exact absurd (ht '+' (by simp)) (by decide)
  · rw [h]; rfl

theorem literal_plus (h : magnitude t = some n) : literal ('+' :: t) = some (n : Int) := by
  rw [literal, h]; rfl

theorem literal_minus (h : magnitude t = some n) : literal ('-' :: t) = some (-(n : Int)) := by
  rw [literal, h]; rfl

theorem literal_zero (h : magnitude ('0' :: t) = some n) : literal ('0' :: t) = some (n : Int) := by
  simp [literal, h]

end

theorem isDigit_of_mem_decimal {n k : Nat} : ∀ c ∈ List.replicate k '0' ++ Nat.toDigits 10 n, c.isDigit = true := by
  intro c hc
  rcases List.mem_append.mp hc with hc | hc
  · rw [List.eq_of_mem_replicate hc]; decide
  · exact Nat.isDigit_of_mem_toDigits (by decide) (by decide) hc

theorem magnitude_decimal (n k : Nat) : magnitude (List.replicate k '0' ++ Nat.toDigits 10 n) = some n :=
  (magnitude_of_digits isDigit_of_mem_decimal).trans (numeral_decimal n k)

/-- Settles O59: the sign and the mark are read off, the rest is a numeral. -/
theorem literalsHaveTheirValue : Obligations.LiteralsHaveTheirValue := by
  intro n k ds h dec hex
  have hdec : magnitude dec = some n := magnitude_decimal n k
  have hx : magnitude ('0' :: 'x' :: hex) = some n := numeral_hexadecimal k h
  have hX : magnitude ('0' :: 'X' :: hex) = some n := numeral_hexadecimal k h
  exact ⟨literal_of_digits isDigit_of_mem_decimal hdec, literal_plus hdec, literal_minus hdec, literal_zero hx,
    literal_zero hX, literal_plus hx, literal_plus hX, literal_minus hx, literal_minus hX⟩

end Sys2Proof.Machine
end

section
/-!
PROOF. Duplicate labels (40_encoder.md R114), and what a resolved operand becomes (R122 to R131): a range check, then the field.
-/

namespace Sys2Proof.Machine

/-! ### Duplicate labels -/

theorem lookupName_of_mem {α : Type} {l : List (Text × α)} {name : Text} (h : name ∈ l.map Prod.fst) :
    ∃ v, lookupName l name = some v :=
  Option.ne_none_iff_exists'.mp fun hnone => (lookupName_eq_none l name).mp hnone h

theorem defineLabel_of_mem {b : EncBook} {name : Text} (hn : isLabelName name = true) (h : name ∈ b.symtab.map Prod.fst) :
    defineLabel b name = .error (.duplicateLabel name) := by
  obtain ⟨v, hv⟩ := lookupName_of_mem h
  rw [defineLabel, if_pos hn, hv]

/-- A well-formed name is the one kind that can be a duplicate, and a name the table lacks is defined. -/
theorem defineLabel_duplicate {b : EncBook} {name : Text} (h : defineLabel b name = .error (.duplicateLabel name)) :
    isLabelName name = true ∧ name ∈ b.symtab.map Prod.fst := by
  unfold defineLabel at h
  split at h
  · next hn =>
    refine ⟨hn, not_not.mp fun hnew => ?_⟩
    rw [(lookupName_eq_none b.symtab name).mpr hnew] at h
    cases h
  · cases h

/-- A second definition is the error of its line. -/
theorem scanLine_of_duplicate {b : EncBook} {line name rest : Text} (hsplit : splitLabel (preprocess line) = some (name, rest))
    (hn : isLabelName name = true) (h : name ∈ b.symtab.map Prod.fst) :
    scanLine b line = .error { kind := .duplicateLabel name, line := b.lineNo + 1 } := by
  have hdef : defineLabel { b with lineNo := b.lineNo + 1 } name = .error (.duplicateLabel name) := defineLabel_of_mem hn h
  simp only [scanLine, scanText, hsplit, hdef]

/-- Settles O54: a lookup finds exactly the names of the table, and pass 2 follows only a pass 1 without error. -/
theorem duplicateLabelFails : Obligations.DuplicateLabelFails :=
  ⟨fun _ _ => ⟨defineLabel_duplicate, fun ⟨hn, h⟩ => defineLabel_of_mem hn h⟩,
    fun _ _ _ _ => scanLine_of_duplicate, fun _ _ h => by rw [assemble, h]⟩

/-! ### Operands that resolve -/

section
variable {symtab : List (Text × Nat)} {addr : Nat} (txt : Text) {a b c : Text} {r1 r2 : RegIdx} {v : Int} {kind : ImmKind}

theorem resolveImm_literal (h : literal c = some v) : resolveImm kind symtab addr c = .ok v := by
  rw [resolveImm, h]

/-- A label gives its address less that of the instruction (R123). -/
theorem resolveImm_label {target : Nat} (hl : literal c = none) (h : lookupName symtab c = some target) :
    resolveImm .rel symtab addr c = .ok ((target : Int) - addr) := by
  rw [resolveImm, hl, labelValue, h]; rfl

theorem resolveMemOffset_of_split {m : Text} (hm : splitMemOffset m = some (c, b))
    (hc : resolveImm kind symtab addr c = .ok v) (hb : resolveReg b = .ok r2) :
    resolveMemOffset kind symtab addr m = .ok (v, r2) := by
  simp only [resolveMemOffset, hm, hc, hb]

/-- The value within the bounds goes on, any other is the error that names both. -/
theorem checkRange_bind {α : Type} (lo hi v : Int) (f : Int → Except EncErrorKind α) :
    (checkRange lo hi v >>= f) = if lo ≤ v ∧ v ≤ hi then f v else .error (.immediateOutOfRange v lo hi) := by
  unfold checkRange
  split <;> rfl

/-! ### What each operand shape makes of them -/

theorem regRegImm_resolved (mk : RegIdx → RegIdx → Int → Instr) (range : Int → Except EncErrorKind Int)
    (ha : resolveReg a = .ok r1) (hb : resolveReg b = .ok r2) (hc : resolveImm .lit symtab addr c = .ok v) :
    regRegImm mk range symtab addr txt [a, b, c] = range v >>= fun v => .ok (mk r1 r2 v) := by
  rw [regRegImm, ha, hb, hc]; rfl

theorem regRegTarget_resolved (mk : RegIdx → RegIdx → Int → Instr)
    (ha : resolveReg a = .ok r1) (hb : resolveReg b = .ok r2) (hc : resolveImm .rel symtab addr c = .ok v) :
    regRegTarget mk symtab addr txt [a, b, c] =
      if -4096 ≤ v ∧ v ≤ 4095 then .ok (mk r1 r2 v) else .error (.immediateOutOfRange v (-4096) 4095) := by
  rw [regRegTarget, ha, hb, hc]; exact checkRange_bind ..

theorem regTarget_resolved (mk : RegIdx → Int → Instr)
    (ha : resolveReg a = .ok r1) (hc : resolveImm .rel symtab addr c = .ok v) :
    regTarget mk symtab addr txt [a, c] =
      if -1048576 ≤ v ∧ v ≤ 1048575 then .ok (mk r1 v) else .error (.immediateOutOfRange v (-1048576) 1048575) := by
  rw [regTarget, ha, hc]; exact checkRange_bind ..

theorem regValue_resolved (mk : RegIdx → Int → Instr)
    (ha : resolveReg a = .ok r1) (hc : resolveImm .lit symtab addr c = .ok v) :
    regValue mk symtab addr txt [a, c] = .ok (mk r1 v) := by
  rw [regValue, ha, hc]; rfl

theorem regMemOffset_resolved (mk : RegIdx → RegIdx → Int → Instr) (kind : ImmKind) {m : Text}
    (ha : resolveReg a = .ok r1) (hm : resolveMemOffset kind symtab addr m = .ok (v, r2)) :
    regMemOffset mk kind symtab addr txt [a, m] =
      if -2048 ≤ v ∧ v ≤ 2047 then .ok (mk r1 r2 v) else .error (.immediateOutOfRange v (-2048) 2047) := by
  rw [regMemOffset, ha, hm]; exact checkRange_bind ..

theorem regRegImm_checked (mk : RegIdx → RegIdx → Int → Instr)
    (ha : resolveReg a = .ok r1) (hb : resolveReg b = .ok r2) (hc : resolveImm .lit symtab addr c = .ok v) :
    regRegImm mk rangeIS symtab addr txt [a, b, c] =
      if -2048 ≤ v ∧ v ≤ 2047 then .ok (mk r1 r2 v) else .error (.immediateOutOfRange v (-2048) 2047) :=
  (regRegImm_resolved txt mk rangeIS ha hb hc).trans (checkRange_bind ..)

/-- Packing a value in `n` bits reduces it modulo 2^n (R129 to R131). -/
theorem ofInt_emod (n : Nat) (v : Int) : BitVec.ofInt n (v % 2 ^ n) = BitVec.ofInt n v := by
  apply BitVec.eq_of_toNat_eq
  simp [BitVec.toNat_ofInt]

theorem ofInt5_emod (v : Int) : BitVec.ofInt 5 (v % 32) = BitVec.ofInt 5 v := ofInt_emod 5 v

theorem ofInt12_emod (v : Int) : BitVec.ofInt 12 (v % 4096) = BitVec.ofInt 12 v := ofInt_emod 12 v

theorem ofInt32_emod (v : Int) : BitVec.ofInt 32 (v % 2 ^ 32) = BitVec.ofInt 32 v := ofInt_emod 32 v

end

/-- Settles O55, operand shape by operand shape. -/
theorem immediateRangesAndFields : Obligations.ImmediateRangesAndFields := by
  intro symtab addr txt a b c r1 r2 v ha hb hc
  have hlit : ∀ kind, resolveImm kind symtab addr c = .ok v := fun _ => resolveImm_literal hc
  refine ⟨regRegImm_checked txt _ ha hb (hlit _), regRegImm_checked txt _ ha hb (hlit _), fun m hm => ?mem,
    regRegTarget_resolved txt _ ha hb (hlit _), regRegTarget_resolved txt _ ha hb (hlit _), regTarget_resolved txt _ ha (hlit _),
    ?slli, ?srli, ?sltiu, ?lui, ?auipc⟩
  case mem =>
    have hmem : ∀ kind, resolveMemOffset kind symtab addr m = .ok (v, r2) := fun kind =>
      resolveMemOffset_of_split hm (hlit kind) hb
    exact ⟨regMemOffset_resolved txt (fun rd rs1 v => .lw rd rs1 (twos12 v)) .abs ha (hmem _),
      regMemOffset_resolved txt (fun rd rs1 v => .jalr rd rs1 (twos12 v)) .lit ha (hmem _),
      regMemOffset_resolved txt (fun rs2 rs1 v => .sw rs2 rs1 (twos12 v)) .abs ha (hmem _)⟩
  case slli => rw [ofInt5_emod]; exact regRegImm_resolved txt _ .ok ha hb (hlit _)
  case srli => rw [ofInt5_emod]; exact regRegImm_resolved txt _ .ok ha hb (hlit _)
  case sltiu => rw [ofInt12_emod]; exact regRegImm_resolved txt _ .ok ha hb (hlit _)
  case lui => rw [ofInt32_emod]; exact regValue_resolved txt _ ha (hlit _)
  case auipc => rw [ofInt32_emod]; exact regValue_resolved txt _ ha (hlit _)

end Sys2Proof.Machine
end

section
/-!
PROOF. Labels in branches and `jal` (40_encoder.md R123): the offset packed from a label in range is even, so no bit of it is lost,
and added to the pc of the instruction it gives the label's address.
-/

namespace Sys2Proof.Machine

/-- A packed multiple of 2 has bit 0 clear. -/
theorem ofInt_bit0 {n : Nat} (hn : n ≠ 0) {d : Int} (hd : d % 2 = 0) : (!(BitVec.ofInt n d).getLsbD 0) = true := by
  have heven : d % 2 ^ n % 2 = 0 := by rw [Int.emod_emod_of_dvd d (dvd_pow_self 2 hn)]; exact hd
  have hnat : (BitVec.ofInt n d).toNat % 2 = 0 := by
    rw [BitVec.toNat_ofInt]
    push_cast
    omega
  rw [BitVec.getLsbD, Nat.testBit_zero, hnat]; rfl

/-- From the pc of the instruction, the offset of a label leads to the label. -/
theorem pc_add_offset {n addr target : Nat} {x : Word} {off : BitVec n} (hx : x = BitVec.ofNat 32 addr)
    (hoff : off.toInt = (target : Int) - addr) : x + off.signExtend 32 = BitVec.ofNat 32 target := by
  apply BitVec.eq_of_toNat_eq
  rw [add_signExtend, hoff, hx, BitVec.toNat_ofInt, BitVec.toNat_ofNat, BitVec.toNat_ofNat]
  omega

section
variable {s : State} {addr target : Nat} (hpc : s.pc = BitVec.ofNat 32 addr)
include hpc

/-- A branch with the packed offset of a label in range targets the label. -/
theorem branchTarget_label (hlo : -4096 ≤ (target : Int) - addr) (hhi : (target : Int) - addr ≤ 4095) :
    s.branchTarget (twos13 ((target : Int) - addr)) = BitVec.ofNat 32 target :=
  pc_add_offset hpc (BitVec.toInt_ofInt_eq_self (by decide) (by simpa using hlo) (by simpa using Int.lt_add_one_of_le hhi))

theorem jalTarget_label (hlo : -1048576 ≤ (target : Int) - addr) (hhi : (target : Int) - addr ≤ 1048575) :
    s.jalTarget (twos21 ((target : Int) - addr)) = BitVec.ofNat 32 target :=
  pc_add_offset hpc (BitVec.toInt_ofInt_eq_self (by decide) (by simpa using hlo) (by simpa using Int.lt_add_one_of_le hhi))

end

/-- Settles O56: in range the packed offset keeps its value and its word the instruction, past it the check names both bounds. -/
theorem labelBranchesLandOnTheLabel : Obligations.LabelBranchesLandOnTheLabel := by
  intro symtab addr target txt a b name r1 r2 s ha hb hl hname haddr htarget hpc
  have himm := resolveImm_label (addr := addr) hl hname
  have heven : ((target : Int) - addr) % 2 = 0 := by omega
  constructor
  · split
    case isTrue h =>
      obtain ⟨hlo, hhi⟩ := h
      have hland : ∀ c, c = true → s.branchPc c (twos13 ((target : Int) - addr)) = BitVec.ofNat 32 target :=
        fun _ hc => (if_pos hc).trans (branchTarget_label hpc hlo hhi)
      exact ⟨⟨_, _, (regRegTarget_resolved txt _ ha hb himm).trans (if_pos ⟨hlo, hhi⟩),
          decodeOfEncodeIsIdentity _ (ofInt_bit0 (by decide) heven), rfl, fun heq => hland _ (by simp [sameWord, heq])⟩,
        ⟨_, _, (regRegTarget_resolved txt _ ha hb himm).trans (if_pos ⟨hlo, hhi⟩),
          decodeOfEncodeIsIdentity _ (ofInt_bit0 (by decide) heven), rfl, fun hne => hland _ (by simp [sameWord, hne])⟩⟩
    case isFalse h =>
      exact ⟨(regRegTarget_resolved txt _ ha hb himm).trans (if_neg h),
        (regRegTarget_resolved txt _ ha hb himm).trans (if_neg h)⟩
  · split
    case isTrue h =>
      obtain ⟨hlo, hhi⟩ := h
      exact ⟨_, _, (regTarget_resolved txt _ ha himm).trans (if_pos ⟨hlo, hhi⟩),
        decodeOfEncodeIsIdentity _ (ofInt_bit0 (by decide) heven), rfl, jalTarget_label hpc hlo hhi⟩
    case isFalse h => exact (regTarget_resolved txt _ ha himm).trans (if_neg h)

end Sys2Proof.Machine
end

section
/-!
PROOF. An ENC run (40_encoder.md R110, R133, R134): move by move, pass 1 does what `scanAll` does on the lines still to read and pass
2 what `encodeAll` does on the lines still to encode, and each move of ENC is a step of the machine that keeps EXE.
-/

namespace Sys2Proof.Machine

/-! ### The moves of a run -/

/-- Some number of moves of a running ENC. -/
def EncMoves : Encoder → Encoder → Prop := Relation.ReflTransGen fun e e' => e.running = true ∧ e' = e.move

theorem EncMoves.refl (e : Encoder) : EncMoves e e := Relation.ReflTransGen.refl

theorem EncMoves.head {e e' : Encoder} (hrun : e.running = true) (h : EncMoves e.move e') : EncMoves e e' :=
  Relation.ReflTransGen.head ⟨hrun, rfl⟩ h

/-- Each move is a step of the machine in which ENC stands there, with EXE as it is. -/
theorem EncMoves.steps {s : State} {e : Encoder} (h : EncMoves s.enc e) : Steps s { s with enc := e } := by
  induction h with
  | refl => exact .refl s
  | tail _ hmove ih =>
    obtain ⟨hrun, rfl⟩ := hmove
    exact .tail ih (step_of_encoder hrun)

section
variable {e : Encoder}

theorem running_of_pass1 (hp : e.phase = .pass1) : e.running = true := by rw [Encoder.running, hp]

theorem running_of_pass2 (hp : e.phase = .pass2) : e.running = true := by rw [Encoder.running, hp]

theorem move_pass1_nil (hp : e.phase = .pass1) (hs : e.src = []) : e.move = { e with phase := .pass2 } := by
  simp only [Encoder.move, hp, Encoder.movePass1, hs]

theorem move_pass1_ok {line : Text} {rest : List Text} {b : EncBook} (hp : e.phase = .pass1) (hs : e.src = line :: rest)
    (hline : scanLine e.book line = .ok b) : e.move = { e with src := rest, book := b } := by
  simp only [Encoder.move, hp, Encoder.movePass1, hs, hline]

theorem move_pass1_error {line : Text} {rest : List Text} {err : EncError} (hp : e.phase = .pass1)
    (hs : e.src = line :: rest) (hline : scanLine e.book line = .error err) : e.move = Encoder.failed err := by
  simp only [Encoder.move, hp, Encoder.movePass1, hs, hline]

theorem move_pass2_nil (hp : e.phase = .pass2) (hr : e.book.recorded = []) : e.move = Encoder.finished e.acc := by
  simp only [Encoder.move, hp, Encoder.movePass2, hr]

theorem move_pass2_ok {r : InstrLine} {rest : List InstrLine} {w : Word} (hp : e.phase = .pass2)
    (hr : e.book.recorded = r :: rest) (hline : encodeLine e.book.symtab r = .ok w) :
    e.move = { e with book := { e.book with lineNo := r.lineNo, recorded := rest }, acc := e.acc ++ [w] } := by
  simp only [Encoder.move, hp, Encoder.movePass2, hr, hline]

theorem move_pass2_error {r : InstrLine} {rest : List InstrLine} {err : EncError} (hp : e.phase = .pass2)
    (hr : e.book.recorded = r :: rest) (hline : encodeLine e.book.symtab r = .error err) :
    e.move = Encoder.failed err := by
  simp only [Encoder.move, hp, Encoder.movePass2, hr, hline]

end

/-! ### The passes -/

/-- ENC as a run leaves it that has the given result. -/
def Encoder.ended : Except EncError (List Word) → Encoder
  | .ok ws => Encoder.finished ws
  | .error err => Encoder.failed err

/-- Pass 2 ends with the words produced and those of the lines still to encode, or with the first error. -/
theorem pass2_moves {rs : List InstrLine} {e : Encoder} (hp : e.phase = .pass2) (hr : e.book.recorded = rs) :
    EncMoves e (Encoder.ended ((encodeAll e.book.symtab rs).map (e.acc ++ ·))) := by
  induction rs generalizing e with
  | nil =>
    refine .head (running_of_pass2 hp) ?_
    rw [move_pass2_nil hp hr, encodeAll, Except.map, List.append_nil]
    exact .refl _
  | cons r rest ih =>
    refine .head (running_of_pass2 hp) ?_
    cases hline : encodeLine e.book.symtab r with
    | error err =>
      rw [move_pass2_error hp hr hline, encodeAll, hline]
      exact .refl _
    | ok w =>
      rw [move_pass2_ok hp hr hline]
      have hrest := @ih { e with book := { e.book with lineNo := r.lineNo, recorded := rest }, acc := e.acc ++ [w] } hp rfl
      rw [encodeAll, hline]
      cases hall : encodeAll e.book.symtab rest with
      | error err => simpa only [hall, Except.map] using hrest
      | ok ws => simpa only [hall, Except.map, List.append_assoc, List.singleton_append] using hrest

/-- No word is produced before pass 2. -/
theorem map_nil_append (x : Except EncError (List Word)) : x.map ([] ++ ·) = x := by cases x <;> rfl

/-- Pass 1 reads the lines still to read, and pass 2 follows on what it leaves. -/
theorem pass1_moves {src : List Text} {e : Encoder} (hp : e.phase = .pass1) (hs : e.src = src) (hacc : e.acc = []) :
    EncMoves e (Encoder.ended (scanAll e.book src >>= fun b => encodeAll b.symtab b.recorded)) := by
  induction src generalizing e with
  | nil =>
    refine .head (running_of_pass1 hp) ?_
    have hpass2 := @pass2_moves e.book.recorded { e with phase := .pass2 } rfl rfl
    simp only [hacc, map_nil_append] at hpass2
    rw [move_pass1_nil hp hs, hacc]
    exact hpass2
  | cons line rest ih =>
    refine .head (running_of_pass1 hp) ?_
    cases hline : scanLine e.book line with
    | error err =>
      rw [move_pass1_error hp hs hline, scanAll, hline]
      exact .refl _
    | ok b =>
      rw [move_pass1_ok hp hs hline, scanAll, hline]
      exact @ih { e with src := rest, book := b } hp rfl hacc

theorem assemble_eq_bind (src : List Text) :
    assemble src = scanAll EncBook.reset src >>= fun b => encodeAll b.symtab b.recorded := by
  rw [assemble, except_bind]
  cases scanAll EncBook.reset src <;> rfl

/-- A started run ends with what `assemble` gives. -/
theorem start_moves (src : List Text) : EncMoves (Encoder.start src) (Encoder.ended (assemble src)) := by
  rw [assemble_eq_bind]
  exact pass1_moves rfl rfl rfl

/-- Settles O51: the start by the rule of the host's move, the run by the moves of the passes. -/
theorem encoderRunIsAssemble : Obligations.EncoderRunIsAssemble := by
  refine ⟨fun s src hrest => ?start, fun s src henc => ?run⟩
  case start =>
    rw [startEncoder_of_atRest src hrest]
    exact ⟨rfl, rfl, rfl, rfl, rfl, rfl, rfl, rfl, rfl, rfl⟩
  case run =>
    have hmoves : EncMoves s.enc (Encoder.ended (assemble src)) := henc ▸ start_moves src
    refine ⟨_, hmoves.steps, ?_⟩
    cases assemble src with
    | ok ws => exact ⟨rfl, ⟨rfl, rfl, rfl, rfl, rfl, rfl, rfl, rfl, rfl⟩, rfl, rfl, rfl⟩
    | error err => exact ⟨rfl, ⟨rfl, rfl, rfl, rfl, rfl, rfl, rfl, rfl, rfl⟩, rfl, rfl, rfl⟩

end Sys2Proof.Machine
end
